-- ==== Sys2Proof/Word.lean ====
section
/-! DEFINITION. The widths of the block's data (00_scope.md R6: ADDR_W, DATA_W) and the bytes per bank. -/

namespace Sys2Proof

/-- A memory or port address, 16 bits (R6 ADDR_W, R40, R41). -/
abbrev Addr := BitVec 16

/-- A datum, 8 bits (R6 DATA_W, R51). -/
abbrev Byte := BitVec 8

/-- An offset into a bank, 14 bits (R42, R62). -/
abbrev Offset := BitVec 14

/-- Bytes per bank (R6 BANK_SIZE, R20). -/
abbrev bankSize : Nat := 16384

end Sys2Proof
end

