-- ==== Sys2Proof/Config.lean ====
section
/-! DEFINITION. The parameters of an instance (00_scope.md R6), as plain data, and what the spec leaves open: the OPEN
parameters of the instance that stands at power-on and the free values. A free value has no body, so no proof can see it. -/

namespace Sys2Proof

/-- The two models (R1, R6 MODEL). -/
inductive Model where
  | m48
  | m128
  deriving DecidableEq, Repr, Inhabited

/-- The real contention table CT of a model (R120): a non-empty sequence of wait-state counts.
Its first entry stands apart so that the length `L` is positive by construction. -/
structure ContentionTable where
  first : Nat
  rest : List Nat
  deriving DecidableEq, Repr, Inhabited

/-- All entries of a table, `CT[0]` first. -/
abbrev ContentionTable.entries (t : ContentionTable) : List Nat := t.first :: t.rest

/-- `L` (FRAME_LEN), the table's length (R120). -/
abbrev ContentionTable.frameLen (t : ContentionTable) : Nat := t.rest.length + 1

/-- The constants of an instance (R6, R33). ROM images are the contents of the ROM banks (R21) and stand in State. -/
structure Params where
  model : Model
  contentionEnabled : Bool
  bankContended : Vector Bool 8
  slot2Bank : BitVec 3
  table : ContentionTable
  deriving DecidableEq, Repr

/-- A source of exactly one bank's bytes: a ROM image (D16) or a snapshot page (D17). -/
structure BankImage where
  bytes : List Byte
  size_eq : bytes.length = bankSize
  deriving DecidableEq, Repr

/-- Which of the two contention tables (R120, R121): the real one or the no-op one. -/
inductive TableSel where
  | ct
  | zt
  deriving DecidableEq, Repr

/-- The four 16 KiB windows of the memory space (R40, R45). -/
inductive Slot where
  | s0
  | s1
  | s2
  | s3
  deriving DecidableEq, Repr

/-- A bank a slot shows for reads (R23): a RAM bank or a ROM bank. -/
inductive ReadBank where
  | ram (b : BitVec 3)
  | rom (r : BitVec 1)
  deriving DecidableEq, Repr

/-- A bank a slot stores to (R24): a RAM bank or the scratch bank, never a ROM bank. -/
inductive WriteBank where
  | ram (b : BitVec 3)
  | scratch
  deriving DecidableEq, Repr

/-- OPEN at power-on (R6 MODEL). Log 8. -/
opaque Config.model : Model

/-- OPEN at power-on (R6 CONTENTION_ENABLED). Log 8. -/
opaque Config.contentionEnabled : Bool

/-- OPEN at power-on (R6 BANK_CONTENDED, R130). Log 8. -/
opaque Config.bankContended : Vector Bool 8

/-- OPEN at power-on (R6 `L` and CT, R120). Log 8. -/
opaque Config.table : ContentionTable

/-- OPEN at power-on (R6 ROM_IMAGE): the byte at key `r * 16384 + o` of the ROM banks. Log 7. -/
opaque Config.romImage : Nat → Byte

/-- Free value: the unspecified contents of a bank at power-on (R160, D15), by draw number and byte key. Log 6. -/
opaque Config.powerOnByte : Nat → Nat → Byte

/-- Free value: the byte a peripheral answers (R9, R12 "draw byte", D14), by draw number. Log 11. -/
opaque Config.drawByte : Nat → Byte

/-- PRESUMED (the spec's own choice D7, from general knowledge): the bank fixed in slot 2 at power-on. Log 9. -/
def Config.slot2Bank : BitVec 3 := 2#3

/-- PRESUMED (the spec's own choice D6, from general knowledge): no ROM bank is contended. Log 10. -/
def Config.romContended : Bool := false

/-- The parameters of the instance that stands at power-on. -/
def Config.params : Params where
  model := Config.model
  contentionEnabled := Config.contentionEnabled
  bankContended := Config.bankContended
  slot2Bank := Config.slot2Bank
  table := Config.table

end Sys2Proof
end

