-- ==== Sys2Proof/Machine/Contention.lean ====
section
/-! DEFINITION. The contention tables and their lookup (43_contention_table.md R120, R121, R122) and the candidate contents of R128, R129, R130,
which the spec records from general knowledge and no definition of the machine uses. -/

namespace Sys2Proof.Machine

/-- The entries of a table: CT's own (R120), or `L` zeros (R121). -/
def tableEntries (t : ContentionTable) : TableSel → List Nat
  | .ct => t.entries
  | .zt => List.replicate t.frameLen 0

/-- `ctLookup(T, C) = T[C mod L]` (R122). -/
def ctLookup (t : ContentionTable) (sel : TableSel) (c : Nat) : Nat :=
  (tableEntries t sel).getD (c % t.frameLen) 0

/-- The pattern P of R128. -/
def waitPattern : List Nat := [6, 5, 4, 3, 2, 1, 0, 0]

/-- The shape R128 and R129 share: 192 lines of `line` cycles from `start` on, the first 128 cycles of each contended by the pattern (G3).
The pattern starts anew on every line, as G3 and the written entry `CT[14589] = 6` of R129 say; the formula of R129 runs it on across lines,
which gives 2 there. With 224 cycles a line (R128) the two are the same. Log 28. -/
def patternEntry (start line i : Nat) : Nat :=
  if start ≤ i ∧ (i - start) / line < 192 ∧ (i - start) % line < 128 then waitPattern.getD ((i - start) % line % 8) 0 else 0

/-- The candidate frame length (R128, R129). -/
def candidateLen : Model → Nat
  | .m48 => 69888
  | .m128 => 70908

/-- The candidate `CT[i]` (R128, R129). -/
def candidateEntry : Model → Nat → Nat
  | .m48, i => patternEntry 14335 224 i
  | .m128, i => patternEntry 14361 228 i

/-- The candidate table (R128, R129; log 28). -/
def candidateTable (m : Model) : ContentionTable where
  first := candidateEntry m 0
  rest := (List.range (candidateLen m - 1)).map fun i => candidateEntry m (i + 1)

/-- The candidate `BANK_CONTENDED[b]`: odd banks (R130; log 28). -/
def candidateBankContended : Vector Bool 8 := #v[false, true, false, true, false, true, false, true]

end Sys2Proof.Machine
end

