-- ==== Sys2Proof/Machine/Operands.lean ====
section
/-! DEFINITION. The operand forms: how an address splits into slot and offset (R62), the mask tests of a port address and the
arms they select (R63, R64, R70), and the fields of the data bytes (R65, R66, R67, R68). -/

namespace Sys2Proof.Machine

/-- The slot of a memory address, `s = A >> 14` (R46, R62). -/
def slotOf (a : Addr) : Slot :=
  match (a >>> 14).toNat with
  | 0 => .s0
  | 1 => .s1
  | 2 => .s2
  | _ => .s3

/-- The offset of a memory address, `o = A & 0x3FFF = A[13:0]` (R46, R62). -/
def offsetOf (a : Addr) : Offset := (a &&& 0x3FFF#16).setWidth 14

/-- A (mask, pattern) pair of the port decode (R63, R64). -/
structure PortTest where
  mask : Addr
  pat : Addr
  deriving DecidableEq, Repr

/-- `(A & mask) = pattern`. -/
def PortTest.holds (t : PortTest) (a : Addr) : Bool := (a &&& t.mask) == t.pat

/-- `(A & 0x0001) = 0`: arm 1 of both tables and the test of `IO_ISULAPORT` (R63, R64, R111). -/
def ulaTest : PortTest := ⟨0x0001#16, 0x0000#16⟩

/-- `(A & 0xC002) = 0xC000`: the sound chip's data read and its register select (R63, R64). -/
def ayUpperTest : PortTest := ⟨0xC002#16, 0xC000#16⟩

/-- `(A & 0x00E0) = 0`: the joystick stub (R63). -/
def joyTest : PortTest := ⟨0x00E0#16, 0x0000#16⟩

/-- `(A & 0x8002) = 0`: the paging register (R64). -/
def pagingTest : PortTest := ⟨0x8002#16, 0x0000#16⟩

/-- `(A & 0xC002) = 0x8000`: the sound chip's data write (R64). -/
def ayLowerTest : PortTest := ⟨0xC002#16, 0x8000#16⟩

/-- The four arms of `IO_READ` (R63). -/
inductive ReadArm where
  | kbd
  | ayData
  | joy
  | float
  deriving DecidableEq, Repr

/-- The arm an `IO_READ` takes: the first test that holds, in the order keyboard, sound data, joystick, default (R100). -/
def readArm (a : Addr) : ReadArm :=
  if ulaTest.holds a then .kbd
  else if ayUpperTest.holds a then .ayData
  else if joyTest.holds a then .joy
  else .float

/-- The four arms of `IO_WRITE` (R64). -/
inductive WriteArm where
  | ula
  | paging
  | aySel
  | ayData
  deriving DecidableEq, Repr

/-- The test of a write arm (R64). -/
def WriteArm.test : WriteArm → PortTest
  | .ula => ulaTest
  | .paging => pagingTest
  | .aySel => ayUpperTest
  | .ayData => ayLowerTest

/-- The arms an `IO_WRITE` runs, every one whose test holds, in the order of R64 (R105, D12). -/
def writeArms (a : Addr) : List WriteArm :=
  [WriteArm.ula, .paging, .aySel, .ayData].filter fun w => w.test.holds a

/-- PAGF `V[2:0]` BANK (R65, R68). -/
def pagBank (v : Byte) : BitVec 3 := (v &&& 0x07#8).setWidth 3

/-- PAGF `V[3]` SCREEN (R65, R68). -/
def pagScreen (v : Byte) : BitVec 1 := ((v >>> 3) &&& 1#8).setWidth 1

/-- PAGF `V[4]` ROM (R65, R68). -/
def pagRom (v : Byte) : BitVec 1 := ((v >>> 4) &&& 1#8).setWidth 1

/-- PAGF `V[5]` LOCK (R65, R68). -/
def pagLock (v : Byte) : Bool := ((v >>> 5) &&& 1#8) == 1#8

/-- ULAF `D[2:0]` BORDER (R66, R68). -/
def ulaBorder (d : Byte) : BitVec 3 := (d &&& 0x07#8).setWidth 3

/-- ULAF `D[4]` BUZZER, the number 0 or 1 (R66, R68, D13). -/
def ulaBuzzer (d : Byte) : BitVec 1 := ((d >>> 4) &&& 1#8).setWidth 1

/-- AYSELF `D[3:0]`, the sound register index (R67, R68). -/
def ayIndex (d : Byte) : BitVec 4 := (d &&& 0x0F#8).setWidth 4

/-- How many ROM banks a model has (R6 N_ROM, D16). -/
def romCount : Model → Nat
  | .m48 => 1
  | .m128 => 2

end Sys2Proof.Machine
end

