-- ==== Sys2Proof/Syntax.lean ====
section
/-! DEFINITION. The block's operations as syntax: one constructor of `Instr` for each row of opcode_table.json, the raw
transaction record an agent issues (30_encoding.md R61), and the textual lines of R72. -/

namespace Sys2Proof

/-- The operations of the block (R60) and the decode arms of its port operations and of `SET_PAGING` (R63, R64, R91, R92):
one constructor for each row of opcode_table.json. -/
inductive Instr where
  /-- `MEM_READ(A)` (R80). -/
  | memRead (a : Addr)
  /-- `MEM_WRITE(A, D)` (R81). -/
  | memWrite (a : Addr) (d : Byte)
  /-- `MEM_ISCONTENDED(A)` (R82). -/
  | memIsContended (a : Addr)
  /-- `MEM_CONTEND(A, C)` (R83). -/
  | memContend (a : Addr) (c : Nat)
  /-- `SCREEN_READ(O)` (R84). -/
  | screenRead (o : Offset)
  /-- `SET_PAGING(V)`, the accepted case's row (R90). -/
  | setPaging (v : Byte)
  /-- `SET_PAGING(V)`, the locked case's row (R91). -/
  | setPagingLocked (v : Byte)
  /-- `SET_PAGING(V)`, the M48 case's row (R92). -/
  | setPagingM48 (v : Byte)
  /-- `LOAD_SNAPSHOT(pages)` (R93): a map from integers to pages, given as its list of entries. -/
  | loadSnapshot (pages : List (Int × BankImage))
  /-- `IO_READ(A)` (R100). -/
  | ioRead (a : Addr)
  /-- Arm `IOR.KBD` (R101). -/
  | iorKbd (a : Addr)
  /-- Arm `IOR.AYDATA` (R102). -/
  | iorAyData (a : Addr)
  /-- Arm `IOR.JOY` (R103). -/
  | iorJoy (a : Addr)
  /-- Arm `IOR.FLOAT` (R104). -/
  | iorFloat (a : Addr)
  /-- `IO_WRITE(A, D, C)` (R105). -/
  | ioWrite (a : Addr) (d : Byte) (c : Nat)
  /-- Arm `IOW.ULA` (R106). -/
  | iowUla (a : Addr) (d : Byte) (c : Nat)
  /-- Arm `IOW.PAGING` (R107). -/
  | iowPaging (a : Addr) (d : Byte) (c : Nat)
  /-- Arm `IOW.AYSEL` (R108). -/
  | iowAySel (a : Addr) (d : Byte) (c : Nat)
  /-- Arm `IOW.AYDATA` (R109). -/
  | iowAyData (a : Addr) (d : Byte) (c : Nat)
  /-- No arm (R110). -/
  | iowNone (a : Addr) (d : Byte) (c : Nat)
  /-- `IO_ISULAPORT(A)` (R111). -/
  | ioIsUlaPort (a : Addr)
  /-- `IO_CONTEND(A, C)` (R112). -/
  | ioContend (a : Addr) (c : Nat)
  /-- `ctLookup(T, C)` (R122). -/
  | ctLookup (t : TableSel) (c : Nat)
  /-- `CONSTRUCT` (R160): the parameters of R6 and one image for each ROM bank. -/
  | construct (p : Params) (roms : List BankImage)
  /-- `RESET` (R161). -/
  | reset
  deriving DecidableEq, Repr

/-- The name of a transaction record's operation: a row of opcode_table.json. The source gives the kind of a transaction no bits
(R61, D19), so it is a name and no number. -/
inductive Op where
  | memRead | memWrite | memIsContended | memContend | screenRead
  | setPaging | setPagingLocked | setPagingM48 | loadSnapshot
  | ioRead | iorKbd | iorAyData | iorJoy | iorFloat
  | ioWrite | iowUla | iowPaging | iowAySel | iowAyData | iowNone
  | ioIsUlaPort | ioContend | ctLookup | construct | reset
  deriving DecidableEq, Repr

/-- The raw operands of `CONSTRUCT` (R160): lists of any length, before the preconditions of R6 and D16 are checked. -/
structure RawParams where
  model : Model
  contentionEnabled : Bool
  romImages : List (List Byte)
  frameLen : Nat
  ct : List Nat
  bankContended : List Bool
  slot2Bank : Nat
  deriving DecidableEq, Repr

/-- The operands of a record that no bus carries (R62 format HOST, R122's table). -/
inductive HostArg where
  | nothing
  | table (t : TableSel)
  | pages (l : List (Int × List Byte))
  | params (p : RawParams)
  deriving DecidableEq, Repr

/-- A transaction record `(op, A, D, C)` as an agent issues it (R61), raw: any field may be present or absent.
`SCREEN_READ` carries its offset in the field `A`, `SET_PAGING` its byte in `D`. Log 2. -/
structure Record where
  op : Op
  A : Option Addr := none
  D : Option Byte := none
  C : Option Nat := none
  host : HostArg := .nothing
  deriving DecidableEq, Repr

/-- The lines of the textual form (R72), less the stated result. -/
inductive Line where
  /-- `MR A` -/
  | mr (a : Addr)
  /-- `MW A, D` -/
  | mw (a : Addr) (d : Byte)
  /-- `MC? A` -/
  | mcq (a : Addr)
  /-- `MC A @C` -/
  | mc (a : Addr) (c : Nat)
  /-- `SR O` -/
  | sr (o : Offset)
  /-- `PAGE V` -/
  | page (v : Byte)
  /-- `SNAP` with its map of pages -/
  | snap (pages : List (Int × List Byte))
  /-- `IN A` -/
  | inp (a : Addr)
  /-- `OUT A, D @C`; without `@C` it means `@0`. -/
  | out (a : Addr) (d : Byte) (c : Option Nat)
  /-- `ULA? A` -/
  | ulaq (a : Addr)
  /-- `IOC A @C` -/
  | ioc (a : Addr) (c : Nat)
  /-- `RESET` -/
  | reset
  deriving DecidableEq, Repr

end Sys2Proof
end

