-- ==== Sys2Proof/WellFormed.lean ====
section
/-! DEFINITION. Which terms of `Instr` an agent can issue: an arm's row carries an address that selects the arm, a snapshot map has one
entry per index, and `CONSTRUCT` has one image for each ROM bank of its model. Everything else is well-formed by its type. -/

namespace Sys2Proof

/-- No index has two entries: the pages of a snapshot are a map (R93). -/
def distinctIndices {α : Type} : List (Int × α) → Bool
  | [] => true
  | (p, _) :: rest => (rest.all fun e => e.1 != p) && distinctIndices rest

/-- What an instruction must meet beyond its type (log 4 for the arms' rows). -/
def Instr.wellFormed : Instr → Bool
  | .memRead _ => true
  | .memWrite _ _ => true
  | .memIsContended _ => true
  | .memContend _ _ => true
  | .screenRead _ => true
  | .setPaging _ => true
  | .setPagingLocked _ => true
  | .setPagingM48 _ => true
  | .loadSnapshot pages => distinctIndices pages
  | .ioRead _ => true
  | .iorKbd a => Machine.readArm a == .kbd
  | .iorAyData a => Machine.readArm a == .ayData
  | .iorJoy a => Machine.readArm a == .joy
  | .iorFloat a => Machine.readArm a == .float
  | .ioWrite _ _ _ => true
  | .iowUla a _ _ => (Machine.writeArms a).contains .ula
  | .iowPaging a _ _ => (Machine.writeArms a).contains .paging
  | .iowAySel a _ _ => (Machine.writeArms a).contains .aySel
  | .iowAyData a _ _ => (Machine.writeArms a).contains .ayData
  | .iowNone a _ _ => Machine.writeArms a == []
  | .ioIsUlaPort _ => true
  | .ioContend _ _ => true
  | .ctLookup _ _ => true
  | .construct p roms => roms.length == Machine.romCount p.model
  | .reset => true

end Sys2Proof
end

