-- ==== Sys2Proof/Decode.lean ====
section
/-! DEFINITION. The decoder from raw transaction records to instructions, total, rejecting by name; the encoder after it; the reading of
a bare table word; and the textual lines as records. Formats: 30_encoding.md R60 to R64 and R72. -/

namespace Sys2Proof

/-- Why a record is no operation of the block. The block itself raises nothing (R141): these are records its interface cannot
carry (R61 "with the fields its row has and no others", D16, D17, D21, D22). -/
inductive Reject where
  /-- A field of the row is missing, or a field the row has not is present (R61). -/
  | wrongFields (op : Op)
  /-- A screen offset wider than 14 bits (R43, D22). -/
  | offsetTooWide
  /-- The row of a decode arm with an address that does not select that arm (R63, R64; log 4). -/
  | armTestFails (op : Op)
  /-- Two snapshot pages for one index (R93). -/
  | duplicatePage
  /-- A snapshot page that is not 16384 bytes (R93, D17). -/
  | pageSize (p : Int)
  /-- ROM images that are not one image of 16384 bytes for each ROM bank of the model (R6, D16). -/
  | romImages
  /-- A frame length that is not the length of the table, or an empty table (R6, R120). -/
  | tableLength
  /-- Not eight bank tags (R6 BANK_CONTENDED). -/
  | bankTags
  /-- A bank number for slot 2 outside 0..7 (R6, D7). -/
  | slot2Bank
  deriving DecidableEq, Repr

/-- The fields of a record whose row has the operand `A` alone. -/
def Record.withA (r : Record) (k : Addr → Except Reject Instr) : Except Reject Instr :=
  match r.A, r.D, r.C, r.host with
  | some a, none, none, .nothing => k a
  | _, _, _, _ => .error (.wrongFields r.op)

/-- The fields of a record whose row has `A` and `D`. -/
def Record.withAD (r : Record) (k : Addr → Byte → Except Reject Instr) : Except Reject Instr :=
  match r.A, r.D, r.C, r.host with
  | some a, some d, none, .nothing => k a d
  | _, _, _, _ => .error (.wrongFields r.op)

/-- The fields of a record whose row has `A` and `C`. -/
def Record.withAC (r : Record) (k : Addr → Nat → Except Reject Instr) : Except Reject Instr :=
  match r.A, r.D, r.C, r.host with
  | some a, none, some c, .nothing => k a c
  | _, _, _, _ => .error (.wrongFields r.op)

/-- The fields of a record whose row has `A`, `D` and `C`. -/
def Record.withADC (r : Record) (k : Addr → Byte → Nat → Except Reject Instr) : Except Reject Instr :=
  match r.A, r.D, r.C, r.host with
  | some a, some d, some c, .nothing => k a d c
  | _, _, _, _ => .error (.wrongFields r.op)

/-- The fields of a record whose row has a data byte alone (PAGF). -/
def Record.withD (r : Record) (k : Byte → Except Reject Instr) : Except Reject Instr :=
  match r.A, r.D, r.C, r.host with
  | none, some d, none, .nothing => k d
  | _, _, _, _ => .error (.wrongFields r.op)

/-- The fields of a record of the internal lookup: a table and a cycle count. -/
def Record.withTC (r : Record) (k : TableSel → Nat → Except Reject Instr) : Except Reject Instr :=
  match r.A, r.D, r.C, r.host with
  | none, none, some c, .table t => k t c
  | _, _, _, _ => .error (.wrongFields r.op)

/-- The operand of a record of a host call (format HOST). -/
def Record.withHost (r : Record) (k : HostArg → Except Reject Instr) : Except Reject Instr :=
  match r.A, r.D, r.C with
  | none, none, none => k r.host
  | _, _, _ => .error (.wrongFields r.op)

/-- Format SCRF: the offset must fit 14 bits (R62, D22). -/
def decodeScreen (a : Addr) : Except Reject Instr :=
  if a.toNat < bankSize then .ok (.screenRead (a.setWidth 14)) else .error .offsetTooWide

/-- The row of a decode arm: its address must select the arm. -/
def armRow (op : Op) (i : Instr) : Except Reject Instr :=
  if i.wellFormed then .ok i else .error (.armTestFails op)

/-- The pages of a snapshot, each exactly one bank long (R93, D17). -/
def decodePages : List (Int × List Byte) → Except Reject (List (Int × BankImage))
  | [] => .ok []
  | (p, bytes) :: rest =>
    if h : bytes.length = bankSize then
      match decodePages rest with
      | .ok l => .ok ((p, ⟨bytes, h⟩) :: l)
      | .error e => .error e
    else .error (.pageSize p)

/-- A snapshot's map has one entry per index (R93). -/
def decodeSnapshot (l : List (Int × List Byte)) : Except Reject Instr :=
  match decodePages l with
  | .ok pages => if distinctIndices pages then .ok (.loadSnapshot pages) else .error .duplicatePage
  | .error e => .error e

/-- ROM images, each exactly one bank long (D16). -/
def decodeImages : List (List Byte) → Except Reject (List BankImage)
  | [] => .ok []
  | bytes :: rest =>
    if h : bytes.length = bankSize then
      match decodeImages rest with
      | .ok l => .ok (⟨bytes, h⟩ :: l)
      | .error e => .error e
    else .error .romImages

/-- A table and its length (R6 `L > 0`, R120). -/
def decodeTable (frameLen : Nat) (ct : List Nat) : Except Reject ContentionTable :=
  match ct with
  | first :: rest => if frameLen = rest.length + 1 then .ok ⟨first, rest⟩ else .error .tableLength
  | [] => .error .tableLength

/-- The parameters of R6 other than the ROM images. -/
def decodeParams (p : RawParams) : Except Reject Params :=
  match decodeTable p.frameLen p.ct with
  | .error e => .error e
  | .ok table =>
    if h : p.bankContended.length = 8 then
      if p.slot2Bank < 8 then
        .ok ⟨p.model, p.contentionEnabled, ⟨p.bankContended.toArray, by simpa using h⟩, BitVec.ofNat 3 p.slot2Bank, table⟩
      else .error .slot2Bank
    else .error .bankTags

/-- The operands of `CONSTRUCT` (R160, with the preconditions of R6 and D16). -/
def decodeConstruct (raw : RawParams) : Except Reject Instr :=
  match decodeParams raw, decodeImages raw.romImages with
  | .ok p, .ok roms => if roms.length = Machine.romCount p.model then .ok (.construct p roms) else .error .romImages
  | .error e, _ => .error e
  | .ok _, .error e => .error e

/-- The instruction a record stands for, by its row (R60, R61), or the reason it stands for none. -/
def decode (r : Record) : Except Reject Instr :=
  match r.op with
  | .memRead => r.withA fun a => .ok (.memRead a)
  | .memWrite => r.withAD fun a d => .ok (.memWrite a d)
  | .memIsContended => r.withA fun a => .ok (.memIsContended a)
  | .memContend => r.withAC fun a c => .ok (.memContend a c)
  | .screenRead => r.withA decodeScreen
  | .setPaging => r.withD fun v => .ok (.setPaging v)
  | .setPagingLocked => r.withD fun v => .ok (.setPagingLocked v)
  | .setPagingM48 => r.withD fun v => .ok (.setPagingM48 v)
  | .loadSnapshot => r.withHost fun
    | .pages l => decodeSnapshot l
    | _ => .error (.wrongFields r.op)
  | .ioRead => r.withA fun a => .ok (.ioRead a)
  | .iorKbd => r.withA fun a => armRow r.op (.iorKbd a)
  | .iorAyData => r.withA fun a => armRow r.op (.iorAyData a)
  | .iorJoy => r.withA fun a => armRow r.op (.iorJoy a)
  | .iorFloat => r.withA fun a => armRow r.op (.iorFloat a)
  | .ioWrite => r.withADC fun a d c => .ok (.ioWrite a d c)
  | .iowUla => r.withADC fun a d c => armRow r.op (.iowUla a d c)
  | .iowPaging => r.withADC fun a d c => armRow r.op (.iowPaging a d c)
  | .iowAySel => r.withADC fun a d c => armRow r.op (.iowAySel a d c)
  | .iowAyData => r.withADC fun a d c => armRow r.op (.iowAyData a d c)
  | .iowNone => r.withADC fun a d c => armRow r.op (.iowNone a d c)
  | .ioIsUlaPort => r.withA fun a => .ok (.ioIsUlaPort a)
  | .ioContend => r.withAC fun a c => .ok (.ioContend a c)
  | .ctLookup => r.withTC fun t c => .ok (.ctLookup t c)
  | .construct => r.withHost fun
    | .params p => decodeConstruct p
    | _ => .error (.wrongFields r.op)
  | .reset => r.withHost fun
    | .nothing => .ok .reset
    | _ => .error (.wrongFields r.op)

/-- The raw operands of `CONSTRUCT`. -/
def encodeParams (p : Params) (roms : List BankImage) : RawParams where
  model := p.model
  contentionEnabled := p.contentionEnabled
  romImages := roms.map (·.bytes)
  frameLen := p.table.frameLen
  ct := p.table.entries
  bankContended := p.bankContended.toList
  slot2Bank := p.slot2Bank.toNat

/-- The record of an instruction: the fields its row has in R60 and no others (R61). -/
def encode : Instr → Record
  | .memRead a => { op := .memRead, A := some a }
  | .memWrite a d => { op := .memWrite, A := some a, D := some d }
  | .memIsContended a => { op := .memIsContended, A := some a }
  | .memContend a c => { op := .memContend, A := some a, C := some c }
  | .screenRead o => { op := .screenRead, A := some (o.setWidth 16) }
  | .setPaging v => { op := .setPaging, D := some v }
  | .setPagingLocked v => { op := .setPagingLocked, D := some v }
  | .setPagingM48 v => { op := .setPagingM48, D := some v }
  | .loadSnapshot pages => { op := .loadSnapshot, host := .pages (pages.map fun e => (e.1, e.2.bytes)) }
  | .ioRead a => { op := .ioRead, A := some a }
  | .iorKbd a => { op := .iorKbd, A := some a }
  | .iorAyData a => { op := .iorAyData, A := some a }
  | .iorJoy a => { op := .iorJoy, A := some a }
  | .iorFloat a => { op := .iorFloat, A := some a }
  | .ioWrite a d c => { op := .ioWrite, A := some a, D := some d, C := some c }
  | .iowUla a d c => { op := .iowUla, A := some a, D := some d, C := some c }
  | .iowPaging a d c => { op := .iowPaging, A := some a, D := some d, C := some c }
  | .iowAySel a d c => { op := .iowAySel, A := some a, D := some d, C := some c }
  | .iowAyData a d c => { op := .iowAyData, A := some a, D := some d, C := some c }
  | .iowNone a d c => { op := .iowNone, A := some a, D := some d, C := some c }
  | .ioIsUlaPort a => { op := .ioIsUlaPort, A := some a }
  | .ioContend a c => { op := .ioContend, A := some a, C := some c }
  | .ctLookup t c => { op := .ctLookup, C := some c, host := .table t }
  | .construct p roms => { op := .construct, host := .params (encodeParams p roms) }
  | .reset => { op := .reset }

/-- The row a bare 16-bit table word is read as. opcode_table.json gives the kind of a transaction no bits (R61), so rows
share words; this completes a word to the first row in the list below whose address test the word meets. Log 3. -/
def tableRow (a : Addr) : Op :=
  if Machine.writeArms a = [] then .iowNone
  else
    match Machine.readArm a with
    | .ayData => .iorAyData
    | .joy => .iorJoy
    | .float => .iorFloat
    | .kbd =>
      if Machine.ayUpperTest.holds a then .iowAySel
      else if Machine.ayLowerTest.holds a then .iowAyData
      else .iorKbd

/-- The record a table word stands for: no bits are `RESET`, 8 bits a paging byte (PAGF), up to 16 bits a port address, completed by
`tableRow`; operands the table gives no bits are zero. A longer word is no word of the table and stands for a record the decoder refuses. -/
def tableRecord (nbits w : Nat) : Record :=
  if nbits = 0 then { op := .reset }
  else if nbits ≤ 8 then { op := .setPaging, D := some (BitVec.ofNat 8 w) }
  else if nbits ≤ 16 then
    let a : Addr := BitVec.ofNat 16 w
    match tableRow a with
    | .iowNone => { op := .iowNone, A := some a, D := some 0#8, C := some 0 }
    | .iowAySel => { op := .iowAySel, A := some a, D := some 0#8, C := some 0 }
    | .iowAyData => { op := .iowAyData, A := some a, D := some 0#8, C := some 0 }
    | op => { op := op, A := some a }
  else { op := .memRead }

/-- The instruction the decoder reads from a table word (log 3). -/
def decodeTableWord (nbits w : Nat) : Option Instr :=
  match decode (tableRecord nbits w) with
  | .ok i => some i
  | .error _ => none

/-- The record a textual line stands for (R72): `OUT` without `@C` means `@0`. -/
def Line.record : Line → Record
  | .mr a => { op := .memRead, A := some a }
  | .mw a d => { op := .memWrite, A := some a, D := some d }
  | .mcq a => { op := .memIsContended, A := some a }
  | .mc a c => { op := .memContend, A := some a, C := some c }
  | .sr o => { op := .screenRead, A := some (o.setWidth 16) }
  | .page v => { op := .setPaging, D := some v }
  | .snap pages => { op := .loadSnapshot, host := .pages pages }
  | .inp a => { op := .ioRead, A := some a }
  | .out a d c => { op := .ioWrite, A := some a, D := some d, C := some (c.getD 0) }
  | .ulaq a => { op := .ioIsUlaPort, A := some a }
  | .ioc a c => { op := .ioContend, A := some a, C := some c }
  | .reset => { op := .reset }

end Sys2Proof
end

