-- ==== Sys2Proof/Machine/Flags.lean ====
section
/-! DEFINITION. The status bits of the block (10_state.md R37): the contention tags of the four slots (R25) and how a bank's tag is made
(43_contention_table.md R130). The lock bit (R29) is a field of State, set by `SET_PAGING` from PAGF bit 5. -/

namespace Sys2Proof.Machine

/-- `slotCont[0..3]` (R25): true where the slot's table is the real one. -/
structure SlotTags where
  s0 : Bool
  s1 : Bool
  s2 : Bool
  s3 : Bool
  deriving DecidableEq, Repr

/-- The tag of a slot. -/
def SlotTags.get (t : SlotTags) : Slot → Bool
  | .s0 => t.s0
  | .s1 => t.s1
  | .s2 => t.s2
  | .s3 => t.s3

/-- `BANK_CONTENDED[b]` (R6). -/
def bankContended (p : Params) (b : BitVec 3) : Bool := p.bankContended.get b.toFin

/-- The tag of a bank (R25, R130): with contention disabled no bank is contended (R126, D10; log 18). -/
def tag (p : Params) : ReadBank → Bool
  | .ram b => p.contentionEnabled && bankContended p b
  | .rom _ => p.contentionEnabled && Config.romContended

/-- The tags of the four slots when slot 3 shows RAM bank `hi` (R31). -/
def slotTags (p : Params) (hi : BitVec 3) : SlotTags where
  s0 := tag p (.rom 0#1)
  s1 := tag p (.ram 5#3)
  s2 := tag p (.ram p.slot2Bank)
  s3 := tag p (.ram hi)

end Sys2Proof.Machine
end

