-- ==== Sys2Proof/Machine/Memory.lean ====
section
/-! DEFINITION. Byte storage in one canonical form: the storage of a group of banks (10_state.md R20, R21, R22; 20_memory.md R42) is a
list of (key, byte) pairs, keys strictly rising, no entry equal to what an unlisted key reads as. Key of `(bank b, offset o)`: `b * 16384 + o`. -/

namespace Sys2Proof.Machine

/-- What the unlisted bytes of a storage hold: one byte throughout, the unspecified contents of a power-on
(R160, D15: a free value, by draw number; log 6), or the OPEN ROM images of the instance that stands at power-on (R6, R21; log 7). -/
inductive Fill where
  | byte (b : Byte)
  | powerOn (draw : Nat)
  | romImage
  deriving DecidableEq, Repr

/-- What an unlisted key reads as. -/
def Fill.byteAt : Fill → Nat → Byte
  | .byte b, _ => b
  | .powerOn n, k => Config.powerOnByte n k
  | .romImage, k => Config.romImage k

/-- The bytes of a group of banks. -/
structure Memory where
  fill : Fill
  cells : List Host.Cell
  deriving DecidableEq, Repr

/-- The byte a list of cells holds at a key. -/
def lookupCell : List Host.Cell → Nat → Option Byte
  | [], _ => none
  | (k, b) :: rest, a => if k = a then some b else lookupCell rest a

/-- Reading one byte. -/
def Memory.read (m : Memory) (a : Nat) : Byte :=
  (lookupCell m.cells a).getD (m.fill.byteAt a)

/-- The cells that bytes laid out from key `a` on need: none for a byte that the fill already holds. -/
def cellsFrom (fill : Fill) (a : Nat) : List Byte → List Host.Cell
  | [] => []
  | b :: rest =>
    if b = fill.byteAt a then cellsFrom fill (a + 1) rest else (a, b) :: cellsFrom fill (a + 1) rest

/-- Storing bytes at the keys `a`, `a + 1`, …: the block copy of R93 and R160, byte `i` to key `a + i` (R56). -/
def Memory.load (m : Memory) (a : Nat) (bytes : List Byte) : Memory where
  fill := m.fill
  cells :=
    (m.cells.filter fun c => decide (c.1 < a)) ++ cellsFrom m.fill a bytes ++
      m.cells.filter fun c => decide (a + bytes.length ≤ c.1)

/-- Storing one byte (R51). -/
def Memory.write (m : Memory) (a : Nat) (b : Byte) : Memory := m.load a [b]

/-- The canonical form of a storage of `size` bytes. -/
def Memory.wf (size : Nat) (m : Memory) : Bool :=
  decide (m.cells.Pairwise fun c d => c.1 < d.1) && m.cells.all fun c => decide (c.1 < size) && c.2 != m.fill.byteAt c.1

/-- A storage with nothing listed. -/
def Memory.blank (fill : Fill) : Memory := ⟨fill, []⟩

/-- The key of an offset in RAM bank `b` (R42; log 16). -/
def ramKey (b : BitVec 3) (o : Offset) : Nat := b.toNat * bankSize + o.toNat

/-- The key of an offset in ROM bank `r` (R42; log 16). -/
def romKey (r : BitVec 1) (o : Offset) : Nat := r.toNat * bankSize + o.toNat

/-- The ROM banks that hold the given images, image `r` in bank `r` (R21, R160). -/
def romOf (roms : List BankImage) : Memory :=
  (Memory.blank (.byte 0#8)).load 0 (roms.flatMap (·.bytes))

/-- The RAM banks after one snapshot page: all 16384 bytes of bank `p` when `p` is in 0..7, else nothing (R93). -/
def loadPage (ram : Memory) (page : Int × BankImage) : Memory :=
  if 0 ≤ page.1 ∧ page.1 ≤ 7 then ram.load (page.1.toNat * bankSize) page.2.bytes else ram

end Sys2Proof.Machine
end

