-- ==== Sys2Proof/Machine/State.lean ====
section
/-! DEFINITION. The state of the block (10_state.md), the event trace (00_scope.md R14), what an operation returned, the records still to be served,
the reasons a step can stop, and the state right after power-on (R160, R162). -/

namespace Sys2Proof.Machine

/-- The outward calls of the block, as the trace `Out` records them (R9, R14). -/
inductive Event where
  | setBorder (colour : BitVec 3)
  | updateBuzzer (level : BitVec 1) (c : Nat)
  | selectSoundRegister (i : BitVec 4)
  | writeSoundRegister (v : Byte) (c : Nat)
  | kbdPoll (a : Addr) (answer : Byte)
  | readSoundRegister (answer : Byte)
  | setPaging (v : Byte)
  deriving DecidableEq, Repr

/-- What an operation returned (R8, R60): nothing, a byte, a Boolean, a natural, or the built machine itself. -/
inductive Ret where
  | none
  | byte (b : Byte)
  | bool (t : Bool)
  | nat (w : Nat)
  | machine
  deriving DecidableEq, Repr

/-- The faults of the block: none (R13, R140, R141: no operation has a fault outcome). -/
inductive Fault where
  deriving DecidableEq, Repr

/-- The refusals of the model. -/
inductive Refusal where
  /-- Raised by exec for an instruction whose meaning is not written; no arm raises it. Safe. -/
  | notModelled (mnemonic : String)
  /-- Raised by step when the next record is no operation of the block: a field missing or extra, or a precondition of D16, D17, D21,
  D22 not met. No operation of the block is refused so. Safe. -/
  | badRecord (why : Reject)
  deriving DecidableEq, Repr

/-- The state. Its fields from `ram` to `slotCont` are the spec's (10_state.md sections 1 and 3), `params` the instance's constants (R33),
`out` the spec's modelling device (R14); `returned`, `draws` and `pending` are the model's own (logs 12, 11, 1). -/
structure State where
  params : Params
  ram : Memory
  rom : Memory
  scratch : Memory
  hiBank : BitVec 3
  romSel : BitVec 1
  screenSel : BitVec 1
  locked : Bool
  pagingValue : Byte
  slotCont : SlotTags
  out : List Event
  returned : Ret
  draws : Nat
  pending : List Record
  deriving DecidableEq, Repr

/-- The state right after power-on: `CONSTRUCT` with the OPEN parameters of Config (R160, R162; log 30). -/
def State.reset : State where
  params := Config.params
  ram := Memory.blank (.powerOn 0)
  rom := Memory.blank .romImage
  scratch := Memory.blank (.powerOn 1)
  hiBank := 0#3
  romSel := 0#1
  screenSel := 0#1
  locked := false
  pagingValue := 0#8
  slotCont := slotTags Config.params 0#3
  out := []
  returned := .none
  draws := 2
  pending := []

end Sys2Proof.Machine
end

