-- ==== Sys2Proof/Machine/Ops.lean ====
section
/-! DEFINITION. The shared operations over banks, slots and the paging register. There is no exception entry and no return from one: the block
raises nothing and has no trap (60_exceptions.md R140, R145; log 32). -/

namespace Sys2Proof.Machine

/-! ### Banks and slots -/

/-- `RAM[b][o]` (R20). -/
def State.ramByte (s : State) (b : BitVec 3) (o : Offset) : Byte := s.ram.read (ramKey b o)

/-- `ROM[r][o]` (R21). -/
def State.romByte (s : State) (r : BitVec 1) (o : Offset) : Byte := s.rom.read (romKey r o)

/-- `SCRATCH[o]` (R22). -/
def State.scratchByte (s : State) (o : Offset) : Byte := s.scratch.read o.toNat

/-- `slotRd[s]` (R23, R31). -/
def State.slotRd (s : State) : Slot → ReadBank
  | .s0 => .rom s.romSel
  | .s1 => .ram 5#3
  | .s2 => .ram s.params.slot2Bank
  | .s3 => .ram s.hiBank

/-- `slotWr[s]` (R24, R31). -/
def State.slotWr (s : State) : Slot → WriteBank
  | .s0 => .scratch
  | .s1 => .ram 5#3
  | .s2 => .ram s.params.slot2Bank
  | .s3 => .ram s.hiBank

/-- The screen bank (R28, R31). -/
def State.screenBank (s : State) : BitVec 3 := if s.screenSel = 1#1 then 7#3 else 5#3

/-- A byte of a readable bank. -/
def State.bankByte (s : State) : ReadBank → Offset → Byte
  | .ram b, o => s.ramByte b o
  | .rom r, o => s.romByte r o

/-- The byte a memory read sees at an address (R46, R80). -/
def State.memByte (s : State) (a : Addr) : Byte := s.bankByte (s.slotRd (slotOf a)) (offsetOf a)

/-- Storing a byte into a bank (R47). -/
def State.store (s : State) (w : WriteBank) (o : Offset) (d : Byte) : State :=
  match w with
  | .ram b => { s with ram := s.ram.write (ramKey b o) d }
  | .scratch => { s with scratch := s.scratch.write o.toNat d }

/-- Storing a byte at an address (R47, R81). -/
def State.memStore (s : State) (a : Addr) (d : Byte) : State := s.store (s.slotWr (slotOf a)) (offsetOf a) d

/-- The wait states of a memory access (R83, R125). -/
def State.memWait (s : State) (a : Addr) (c : Nat) : Nat :=
  ctLookup s.params.table (if s.slotCont.get (slotOf a) then .ct else .zt) c

/-- The wait states of a port access (R112, R126). -/
def State.ioWait (s : State) (c : Nat) : Nat :=
  if s.params.contentionEnabled then ctLookup s.params.table .ct c else 0

/-! ### What an operation returns and calls -/

/-- The operation returns `r` (R8). -/
def State.answer (s : State) (r : Ret) : State := { s with returned := r }

/-- `emit E` (R12, R14). -/
def State.emit (s : State) (e : Event) : State := { s with out := s.out ++ [e] }

/-- `draw byte` (R12): the answer is `Config.drawByte s.draws` for the state before. -/
def State.drawn (s : State) : State := { s with draws := s.draws + 1 }

/-! ### The paging register -/

/-- What an accepted paging byte writes (R90). -/
def State.acceptPaging (s : State) (v : Byte) : State :=
  { s with
    hiBank := pagBank v
    slotCont := { s.slotCont with s3 := tag s.params (.ram (pagBank v)) }
    romSel := pagRom v
    screenSel := pagScreen v
    locked := pagLock v
    pagingValue := v }

/-- `SET_PAGING(V)`: nothing on M48 (R92), nothing while locked (R91), else R90. -/
def State.setPaging (s : State) (v : Byte) : State :=
  match s.params.model with
  | .m48 => s
  | .m128 => if s.locked then s else s.acceptPaging v

/-- `RESET`: the lock is cleared first (R161). -/
def State.resetPaging (s : State) : State := { s with locked := false }.setPaging 0x00#8

/-! ### The arms of the port operations -/

/-- Arm `IOR.KBD` (R101). -/
def State.readKbd (s : State) (a : Addr) : State :=
  ((s.emit (.kbdPoll a (Config.drawByte s.draws))).drawn).answer (.byte (Config.drawByte s.draws))

/-- Arm `IOR.AYDATA` (R102). -/
def State.readAyData (s : State) : State :=
  ((s.emit (.readSoundRegister (Config.drawByte s.draws))).drawn).answer (.byte (Config.drawByte s.draws))

/-- Arm `IOR.JOY` (R103). -/
def State.readJoy (s : State) : State := s.answer (.byte 0x00#8)

/-- Arm `IOR.FLOAT` (R104). -/
def State.readFloat (s : State) : State := s.answer (.byte 0xFF#8)

/-- One arm of `IO_READ`. -/
def State.runReadArm (s : State) (a : Addr) : ReadArm → State
  | .kbd => s.readKbd a
  | .ayData => s.readAyData
  | .joy => s.readJoy
  | .float => s.readFloat

/-- Arm `IOW.ULA`: the border call, then the buzzer call (R106, D12). -/
def State.writeUla (s : State) (d : Byte) (c : Nat) : State :=
  (s.emit (.setBorder (ulaBorder d))).emit (.updateBuzzer (ulaBuzzer d) c)

/-- Arm `IOW.PAGING`: the event, then `SET_PAGING` (R107). -/
def State.writePaging (s : State) (d : Byte) : State := (s.emit (.setPaging d)).setPaging d

/-- Arm `IOW.AYSEL` (R108). -/
def State.writeAySel (s : State) (d : Byte) : State := s.emit (.selectSoundRegister (ayIndex d))

/-- Arm `IOW.AYDATA` (R109). -/
def State.writeAyData (s : State) (d : Byte) (c : Nat) : State := s.emit (.writeSoundRegister d c)

/-- One arm of `IO_WRITE`. -/
def State.runWriteArm (s : State) (d : Byte) (c : Nat) : WriteArm → State
  | .ula => s.writeUla d c
  | .paging => s.writePaging d
  | .aySel => s.writeAySel d
  | .ayData => s.writeAyData d c

/-- The arms of one `IO_WRITE`, in order (R105). -/
def State.runWriteArms (s : State) (d : Byte) (c : Nat) (arms : List WriteArm) : State :=
  arms.foldl (fun t w => t.runWriteArm d c w) s

/-! ### Construction and the records to serve -/

/-- `CONSTRUCT`: a new instance; RAM and scratch contents are two fresh free draws (R160, D15), the records still to be served stay (log 17). -/
def State.construct (s : State) (p : Params) (roms : List BankImage) : State where
  params := p
  ram := Memory.blank (.powerOn s.draws)
  rom := romOf roms
  scratch := Memory.blank (.powerOn (s.draws + 1))
  hiBank := 0#3
  romSel := 0#1
  screenSel := 0#1
  locked := false
  pagingValue := 0#8
  slotCont := slotTags p 0#3
  out := []
  returned := .machine
  draws := s.draws + 2
  pending := s.pending

/-- The next record, and the state in which it is served (R7, R53; log 1). -/
def State.fetch (s : State) : Option (Record × State) :=
  match s.pending with
  | [] => none
  | r :: rest => some (r, { s with pending := rest })

end Sys2Proof.Machine
end

