-- ==== Sys2Proof/Machine/IoOps.lean ====
section
/-! DEFINITION. The port operations and their decode arms (42_io_ops.md). -/

namespace Sys2Proof.Machine

/-- `IO_READ` (R100). -/
def execIoRead (a : Addr) (s : State) : Host.Outcome State Fault Refusal :=
  .next (s.runReadArm a (readArm a))

/-- `IOR.KBD` (R101). -/
def execIorKbd (a : Addr) (s : State) : Host.Outcome State Fault Refusal :=
  .next (s.readKbd a)

/-- `IOR.AYDATA` (R102): no argument is passed on. -/
def execIorAyData (_a : Addr) (s : State) : Host.Outcome State Fault Refusal :=
  .next s.readAyData

/-- `IOR.JOY` (R103). -/
def execIorJoy (_a : Addr) (s : State) : Host.Outcome State Fault Refusal :=
  .next s.readJoy

/-- `IOR.FLOAT` (R104). -/
def execIorFloat (_a : Addr) (s : State) : Host.Outcome State Fault Refusal :=
  .next s.readFloat

/-- `IO_WRITE` (R105, R110). -/
def execIoWrite (a : Addr) (d : Byte) (c : Nat) (s : State) : Host.Outcome State Fault Refusal :=
  .next ((s.runWriteArms d c (writeArms a)).answer .none)

/-- `IOW.ULA` (R106). -/
def execIowUla (_a : Addr) (d : Byte) (c : Nat) (s : State) : Host.Outcome State Fault Refusal :=
  .next ((s.writeUla d c).answer .none)

/-- `IOW.PAGING` (R107): the cycle count is not used. -/
def execIowPaging (_a : Addr) (d : Byte) (_c : Nat) (s : State) : Host.Outcome State Fault Refusal :=
  .next ((s.writePaging d).answer .none)

/-- `IOW.AYSEL` (R108): the cycle count is not passed. -/
def execIowAySel (_a : Addr) (d : Byte) (_c : Nat) (s : State) : Host.Outcome State Fault Refusal :=
  .next ((s.writeAySel d).answer .none)

/-- `IOW.AYDATA` (R109). -/
def execIowAyData (_a : Addr) (d : Byte) (c : Nat) (s : State) : Host.Outcome State Fault Refusal :=
  .next ((s.writeAyData d c).answer .none)

/-- `IOW.NONE` (R110). -/
def execIowNone (_a : Addr) (_d : Byte) (_c : Nat) (s : State) : Host.Outcome State Fault Refusal :=
  .next (s.answer .none)

/-- `IO_ISULAPORT` (R111). -/
def execIoIsUlaPort (a : Addr) (s : State) : Host.Outcome State Fault Refusal :=
  .next (s.answer (.bool (ulaTest.holds a)))

/-- `IO_CONTEND` (R112): the address is ignored. -/
def execIoContend (_a : Addr) (c : Nat) (s : State) : Host.Outcome State Fault Refusal :=
  .next (s.answer (.nat (s.ioWait c)))

end Sys2Proof.Machine
end

