-- ==== Sys2Proof/Machine/MemoryOps.lean ====
section
/-! DEFINITION. The memory operations and the internal table lookup (40_memory_ops.md, 43_contention_table.md). -/

namespace Sys2Proof.Machine

/-- `MEM_READ` (R80). -/
def execMemRead (a : Addr) (s : State) : Host.Outcome State Fault Refusal :=
  .next (s.answer (.byte (s.memByte a)))

/-- `MEM_WRITE` (R81). -/
def execMemWrite (a : Addr) (d : Byte) (s : State) : Host.Outcome State Fault Refusal :=
  .next ((s.memStore a d).answer .none)

/-- `MEM_ISCONTENDED` (R82). -/
def execMemIsContended (a : Addr) (s : State) : Host.Outcome State Fault Refusal :=
  .next (s.answer (.bool (s.slotCont.get (slotOf a))))

/-- `MEM_CONTEND` (R83). -/
def execMemContend (a : Addr) (c : Nat) (s : State) : Host.Outcome State Fault Refusal :=
  .next (s.answer (.nat (s.memWait a c)))

/-- `SCREEN_READ` (R84). -/
def execScreenRead (o : Offset) (s : State) : Host.Outcome State Fault Refusal :=
  .next (s.answer (.byte (s.ramByte s.screenBank o)))

/-- `ctLookup` (R122). -/
def execCtLookup (t : TableSel) (c : Nat) (s : State) : Host.Outcome State Fault Refusal :=
  .next (s.answer (.nat (ctLookup s.params.table t c)))

end Sys2Proof.Machine
end

