-- ==== Sys2Proof/Machine/PagingOps.lean ====
section
/-! DEFINITION. The bank-switch control operations (41_paging_ops.md). The three rows of `SET_PAGING` are one operation, told apart by the state
it finds (log 5). -/

namespace Sys2Proof.Machine

/-- `SET_PAGING`, row of the accepted case (R90). -/
def execSetPaging (v : Byte) (s : State) : Host.Outcome State Fault Refusal :=
  .next ((s.setPaging v).answer .none)

/-- `SET_PAGING`, row of the locked case (R91). -/
def execSetPagingLocked (v : Byte) (s : State) : Host.Outcome State Fault Refusal :=
  .next ((s.setPaging v).answer .none)

/-- `SET_PAGING`, row of the M48 case (R92). -/
def execSetPagingM48 (v : Byte) (s : State) : Host.Outcome State Fault Refusal :=
  .next ((s.setPaging v).answer .none)

/-- `LOAD_SNAPSHOT` (R93). -/
def execLoadSnapshot (pages : List (Int × BankImage)) (s : State) : Host.Outcome State Fault Refusal :=
  .next ({ s with ram := pages.foldl loadPage s.ram }.answer .none)

end Sys2Proof.Machine
end

