-- ==== Sys2Proof/Machine/SystemOps.lean ====
section
/-! DEFINITION. Construction and reset (70_reset_and_hazards.md). -/

namespace Sys2Proof.Machine

/-- `CONSTRUCT` (R160). -/
def execConstruct (p : Params) (roms : List BankImage) (s : State) : Host.Outcome State Fault Refusal :=
  .next (s.construct p roms)

/-- `RESET` (R161, R163). -/
def execReset (s : State) : Host.Outcome State Fault Refusal :=
  .next (s.resetPaging.answer .none)

end Sys2Proof.Machine
end

