-- ==== Sys2Proof/Machine/Dispatch.lean ====
section
/-! DEFINITION. One arm per constructor of Instr: each calls its own meaning. -/

namespace Sys2Proof.Machine

def exec (i : Instr) (s : State) : Host.Outcome State Fault Refusal :=
  match i with
  | .memRead a => Sys2Proof.Machine.execMemRead a s
  | .memWrite a d => Sys2Proof.Machine.execMemWrite a d s
  | .memIsContended a => Sys2Proof.Machine.execMemIsContended a s
  | .memContend a c => Sys2Proof.Machine.execMemContend a c s
  | .screenRead o => Sys2Proof.Machine.execScreenRead o s
  | .setPaging v => Sys2Proof.Machine.execSetPaging v s
  | .setPagingLocked v => Sys2Proof.Machine.execSetPagingLocked v s
  | .setPagingM48 v => Sys2Proof.Machine.execSetPagingM48 v s
  | .loadSnapshot pages => Sys2Proof.Machine.execLoadSnapshot pages s
  | .ioRead a => Sys2Proof.Machine.execIoRead a s
  | .iorKbd a => Sys2Proof.Machine.execIorKbd a s
  | .iorAyData a => Sys2Proof.Machine.execIorAyData a s
  | .iorJoy a => Sys2Proof.Machine.execIorJoy a s
  | .iorFloat a => Sys2Proof.Machine.execIorFloat a s
  | .ioWrite a d c => Sys2Proof.Machine.execIoWrite a d c s
  | .iowUla a d c => Sys2Proof.Machine.execIowUla a d c s
  | .iowPaging a d c => Sys2Proof.Machine.execIowPaging a d c s
  | .iowAySel a d c => Sys2Proof.Machine.execIowAySel a d c s
  | .iowAyData a d c => Sys2Proof.Machine.execIowAyData a d c s
  | .iowNone a d c => Sys2Proof.Machine.execIowNone a d c s
  | .ioIsUlaPort a => Sys2Proof.Machine.execIoIsUlaPort a s
  | .ioContend a c => Sys2Proof.Machine.execIoContend a c s
  | .ctLookup t c => Sys2Proof.Machine.execCtLookup t c s
  | .construct p roms => Sys2Proof.Machine.execConstruct p roms s
  | .reset => Sys2Proof.Machine.execReset s

end Sys2Proof.Machine
end

