-- ==== Sys2Proof/Machine/Step.lean ====
section
/-! DEFINITION. One step: serve the oldest pending record, completely, before the next (R7, R53). With nothing pending the block does nothing
(R7 "the block itself never acts unasked", R173). -/

namespace Sys2Proof.Machine

/-- One step of the machine (log 1). -/
def step (s : State) : Host.Outcome State Fault Refusal :=
  match s.fetch with
  | none => .next s
  | some (r, t) =>
    match decode r with
    | .ok i => exec i t
    | .error e => .refused (.badRecord e)

/-- `s` with the record of a table word issued as the next one to serve (logs 1 and 3). -/
def State.withFetchWord (s : State) (nbits w : Nat) : State :=
  { s with pending := tableRecord nbits w :: s.pending }

end Sys2Proof.Machine
end

