-- ==== Sys2Proof/Safety.lean ====
section
/-! DEFINITION. What counts as a sound state of the block, and the notions the claims are stated in: the invariant every operation keeps
(10_state.md R31, 41_paging_ops.md R92, and the canonical form of the storage), which instructions end the life of a lock, and the
effect of a sequence of instructions with the records left out. -/

namespace Sys2Proof.Machine

/-- The invariant of the block. -/
structure Inv (s : State) : Prop where
  /-- RAM is canonical and holds nothing beyond its eight banks (R20). -/
  ramWf : s.ram.wf (8 * bankSize) = true
  /-- ROM is canonical and holds nothing beyond the model's banks (R21, R6 N_ROM). -/
  romWf : s.rom.wf (romCount s.params.model * bankSize) = true
  /-- SCRATCH is canonical and one bank long (R22). -/
  scratchWf : s.scratch.wf bankSize = true
  /-- `hiBank = pagingValue[2:0]` (R31). -/
  hiBank : s.hiBank = s.pagingValue.extractLsb' 0 3
  /-- `screenSel = pagingValue[3]` (R31). -/
  screenSel : s.screenSel = s.pagingValue.extractLsb' 3 1
  /-- `romSel = pagingValue[4]` (R31). -/
  romSel : s.romSel = s.pagingValue.extractLsb' 4 1
  /-- `locked = (pagingValue[5] = 1)` (R31). -/
  locked : s.locked = s.pagingValue.getLsbD 5
  /-- Each slot's tag is the tag of its bank (R31). -/
  slotCont : s.slotCont = slotTags s.params s.hiBank
  /-- On M48 the paging register stays 0 (R92). -/
  m48 : s.params.model = .m48 → s.pagingValue = 0#8

/-- The two operations that end the life of a lock (R29: `RESET`, or a new `CONSTRUCT`). -/
def endsLock : Instr → Bool
  | .reset => true
  | .construct _ _ => true
  | _ => false

/-- The operations that can change a paging field (R37, R113, R161, R160). -/
def mayPage : Instr → Bool
  | .setPaging _ => true
  | .setPagingLocked _ => true
  | .setPagingM48 _ => true
  | .ioWrite _ _ _ => true
  | .iowPaging _ _ _ => true
  | .reset => true
  | .construct _ _ => true
  | _ => false

/-- The operations that can change a byte of RAM (R20; `CONSTRUCT` allocates it). -/
def mayWriteRam : Instr → Bool
  | .memWrite _ _ => true
  | .loadSnapshot _ => true
  | .construct _ _ => true
  | _ => false

/-- The instructions of a list, one after another (R53). -/
def serve : List Instr → State → Host.Outcome State Fault Refusal
  | [], s => .next s
  | i :: rest, s =>
    match exec i s with
    | .next t => serve rest t
    | .fault r => .fault r
    | .refused r => .refused r

end Sys2Proof.Machine
end

