-- ==== Sys2Proof/Certificates/Slice0/Obligations.lean ====
section
/-! DEFINITION. The statements for the provers, from the numbered rules of spec/. A result statement says the whole next state, so it says the
completion and the frame of its instruction as well: every field it does not name is as before. Constants are written as the rules write them,
not through the model's own field extractions. -/

open Sys2Proof Sys2Proof.Machine

/-! ### Encoding and decoding -/

/-- R60, R61: decoding the record of a well-formed instruction gives the instruction back, with every operand at every value.
The record form is the model's (log 2). -/
def Obligations.DecodeOfEncodeIsTheInstruction : Prop :=
  ∀ i : Instr, i.wellFormed = true → decode (encode i) = .ok i

/-- R61 "with the fields its row in rule R60 has and no others": a record that decodes is the record of exactly that instruction, and the
instruction is well-formed. The record form is the model's (log 2). -/
def Obligations.DecodedRecordIsTheEncoding : Prop :=
  ∀ (r : Record) (i : Instr), decode r = .ok i → i.wellFormed = true ∧ encode i = r

/-- R61, R62: eleven records written out by hand decode to the operation they stand for or are refused by name: MEM_WRITE, MEM_CONTEND, IO_WRITE
and RESET records from the programs of 95_test_vectors.md, arm addresses from its tables 2.4 and 2.5, and four more (SCREEN_READ `0x3FFF` and `0x4000`,
SET_PAGING `0x31`, MEM_READ with a `D`) from the fields of their rows in R60. That SCREEN_READ carries its offset in `A` and SET_PAGING its byte
in `D` is the model's choice (log 2), the arms' rows as records of their own too (log 4); that an offset wider than 14 bits is no offset is the
spec's decision D22. -/
def Obligations.WrittenRecordsDecode : Prop :=
  decode { op := .memWrite, A := some 0xC000#16, D := some 0x42#8 } = .ok (.memWrite 0xC000#16 0x42#8) ∧
  decode { op := .memContend, A := some 0xC000#16, C := some 14361 } = .ok (.memContend 0xC000#16 14361) ∧
  decode { op := .screenRead, A := some 0x3FFF#16 } = .ok (.screenRead 0x3FFF#14) ∧
  decode { op := .screenRead, A := some 0x4000#16 } = .error .offsetTooWide ∧
  decode { op := .setPaging, D := some 0x31#8 } = .ok (.setPaging 0x31#8) ∧
  decode { op := .ioWrite, A := some 0x7FFC#16, D := some 0x1F#8, C := some 100 } = .ok (.ioWrite 0x7FFC#16 0x1F#8 100) ∧
  decode { op := .iorAyData, A := some 0xC01D#16 } = .ok (.iorAyData 0xC01D#16) ∧
  decode { op := .iorJoy, A := some 0xC01D#16 } = .error (.armTestFails .iorJoy) ∧
  decode { op := .iowNone, A := some 0x7FFF#16, D := some 0xAA#8, C := some 0 } = .ok (.iowNone 0x7FFF#16 0xAA#8 0) ∧
  decode { op := .memRead, A := some 0x0000#16, D := some 0x00#8 } = .error (.wrongFields .memRead) ∧
  decode { op := .reset } = .ok .reset

/-- R63: a port read address is tested in the order 1, 2, 3, the first match wins, and arm 4 applies if none matches; `IO_READ` is the
operation of the arm so chosen. -/
def Obligations.PortReadTakesTheFirstMatchingArm : Prop :=
  ∀ (a : Addr) (s : State),
    (a &&& 0x0001#16 = 0x0000#16 → exec (.ioRead a) s = exec (.iorKbd a) s) ∧
    (a &&& 0x0001#16 ≠ 0x0000#16 → a &&& 0xC002#16 = 0xC000#16 → exec (.ioRead a) s = exec (.iorAyData a) s) ∧
    (a &&& 0x0001#16 ≠ 0x0000#16 → a &&& 0xC002#16 ≠ 0xC000#16 → a &&& 0x00E0#16 = 0x0000#16 →
      exec (.ioRead a) s = exec (.iorJoy a) s) ∧
    (a &&& 0x0001#16 ≠ 0x0000#16 → a &&& 0xC002#16 ≠ 0xC000#16 → a &&& 0x00E0#16 ≠ 0x0000#16 →
      exec (.ioRead a) s = exec (.iorFloat a) s)

/-- R70: the truth table of the read decode, by the address bits, for every port address. -/
def Obligations.PortReadTruthTable : Prop :=
  ∀ a : Addr,
    (readArm a = .kbd ↔ a.getLsbD 0 = false) ∧
    (readArm a = .ayData ↔ a.getLsbD 0 = true ∧ a.getLsbD 15 = true ∧ a.getLsbD 14 = true ∧ a.getLsbD 1 = false) ∧
    (readArm a = .joy ↔ a.getLsbD 0 = true ∧ ¬ (a.getLsbD 15 = true ∧ a.getLsbD 14 = true ∧ a.getLsbD 1 = false) ∧
      a.getLsbD 7 = false ∧ a.getLsbD 6 = false ∧ a.getLsbD 5 = false) ∧
    (readArm a = .float ↔ a.getLsbD 0 = true ∧ ¬ (a.getLsbD 15 = true ∧ a.getLsbD 14 = true ∧ a.getLsbD 1 = false) ∧
      ¬ (a.getLsbD 7 = false ∧ a.getLsbD 6 = false ∧ a.getLsbD 5 = false))

/-- R70: the truth table of the write decode, by the address bits, for every port address; the order of the arms is the spec's decision D12
(log 22). -/
def Obligations.PortWriteTruthTable : Prop :=
  ∀ a : Addr,
    writeArms a =
      (if a.getLsbD 0 = false then [WriteArm.ula] else []) ++
      (if a.getLsbD 1 = true then []
       else if a.getLsbD 15 = false then [WriteArm.paging]
       else if a.getLsbD 14 = true then [WriteArm.aySel]
       else [WriteArm.ayData])

/-! ### The step -/

/-- R7, R53: a step serves the oldest pending record: it is exec of the decoded instruction in the state with that record taken off.
The queue of records is the model's (log 1). -/
def Obligations.StepServesTheDecodedRecord : Prop :=
  ∀ (s : State) (r : Record) (rest : List Record) (i : Instr),
    s.pending = r :: rest → decode r = .ok i → step s = exec i { s with pending := rest }

/-- R7, R173: with nothing pending a step changes nothing; a record that is no operation is refused by name. The model's choice (log 1). -/
def Obligations.StepWithoutAnOperation : Prop :=
  (∀ s : State, s.pending = [] → step s = .next s) ∧
  (∀ (s : State) (r : Record) (rest : List Record) (e : Reject),
    s.pending = r :: rest → decode r = .error e → step s = .refused (.badRecord e))

/-- R13, R141: every operation answers a next state, for every operand and in every state; none faults or is refused. -/
def Obligations.EveryOperationCompletes : Prop :=
  ∀ (i : Instr) (s : State), ∃ t, exec i s = .next t

/-- R53, R165: no operation sees or changes the records that wait behind it: with other records waiting, it does the same and leaves them
as they are. -/
def Obligations.OperationsDoNotSeeTheQueue : Prop :=
  ∀ (i : Instr) (s t : State) (q : List Record),
    exec i s = .next t → t.pending = s.pending ∧ exec i { s with pending := q } = .next { t with pending := q }

/-- R53: a run over issued records is the operations' effects in issue order, completely, one after another, for every list of well-formed
operations and every state: nothing is reordered, dropped or merged. The queue is the model's (log 1). -/
def Obligations.RunAppliesOperationsInIssueOrder : Prop :=
  ∀ (is : List Instr) (s : State),
    (∀ i ∈ is, i.wellFormed = true) →
    core.run is.length { s with pending := is.map encode } = serve is { s with pending := [] } ∧
    ∃ t : State, serve is { s with pending := [] } = .next t ∧ t.pending = []

/-! ### Memory operations -/

/-- R46: the byte read, by the four slots of the memory space. -/
def Obligations.MemReadReturnsTheMappedByte : Prop :=
  ∀ (s : State) (a : Addr),
    exec (.memRead a) s = .next { s with returned := .byte (
      if a.toNat < 0x4000 then s.romByte s.romSel (a.extractLsb' 0 14)
      else if a.toNat < 0x8000 then s.ramByte 5#3 (a.extractLsb' 0 14)
      else if a.toNat < 0xC000 then s.ramByte s.params.slot2Bank (a.extractLsb' 0 14)
      else s.ramByte s.hiBank (a.extractLsb' 0 14)) }

/-- R47: where the byte written goes, by the four slots, and that the read and the write translation differ in slot 0 only. -/
def Obligations.MemWriteStoresInTheMappedBank : Prop :=
  (∀ (s : State) (a : Addr) (d : Byte),
    exec (.memWrite a d) s = .next
      (if a.toNat < 0x4000 then
        { s with scratch := s.scratch.write (a.extractLsb' 0 14).toNat d, returned := .none }
       else
        { s with
          ram := s.ram.write (ramKey
            (if a.toNat < 0x8000 then 5#3 else if a.toNat < 0xC000 then s.params.slot2Bank else s.hiBank)
            (a.extractLsb' 0 14)) d
          returned := .none })) ∧
  (∀ (s : State) (x : Slot),
    (x = .s0 → s.slotRd x = .rom s.romSel ∧ s.slotWr x = .scratch) ∧
    (x ≠ .s0 → ∃ b, s.slotRd x = .ram b ∧ s.slotWr x = .ram b))

/-- R81, R53: the frame of a memory write. Every byte of every bank reads as before, but the one at the offset of the address in the bank
`slotWr` gives for its slot; and no other field of the state changes. -/
def Obligations.MemWriteChangesNoOtherByte : Prop :=
  ∀ (s : State) (a : Addr) (d : Byte), ∃ t, exec (.memWrite a d) s = .next t ∧
    (∀ (b : BitVec 3) (o : Offset), ¬ (s.slotWr (slotOf a) = .ram b ∧ offsetOf a = o) → t.ramByte b o = s.ramByte b o) ∧
    (∀ (r : BitVec 1) (o : Offset), t.romByte r o = s.romByte r o) ∧
    (∀ o : Offset, ¬ (s.slotWr (slotOf a) = .scratch ∧ offsetOf a = o) → t.scratchByte o = s.scratchByte o) ∧
    t = { s with ram := t.ram, scratch := t.scratch, returned := .none }

/-- R48: a write whose address is in slot 0 changes no RAM bank, no ROM bank and no paging state, at every `romSel` and on both models, and no
later read of any address, of the screen or of a port query tells. -/
def Obligations.RomSlotWritesAreDropped : Prop :=
  ∀ (s : State) (a : Addr) (d : Byte), a.toNat < 0x4000 → ∃ t, exec (.memWrite a d) s = .next t ∧
    t = { s with scratch := t.scratch, returned := .none } ∧
    (∀ x : Addr, ∃ b, exec (.memRead x) t = .next { t with returned := .byte b } ∧
      exec (.memRead x) s = .next { s with returned := .byte b }) ∧
    (∀ o : Offset, ∃ b, exec (.screenRead o) t = .next { t with returned := .byte b } ∧
      exec (.screenRead o) s = .next { s with returned := .byte b })

/-- R85: the write-then-read law of JSS2 section 8, for RAM-backed and for ROM-backed slots, in every state. -/
def Obligations.WriteThenReadReturnsTheByte : Prop :=
  ∀ (s : State) (a : Addr) (d : Byte), ∃ t, exec (.memWrite a d) s = .next t ∧
    (0x4000 ≤ a.toNat → exec (.memRead a) t = .next { t with returned := .byte d }) ∧
    (a.toNat < 0x4000 → ∃ b, exec (.memRead a) s = .next { s with returned := .byte b } ∧
      exec (.memRead a) t = .next { t with returned := .byte b })

/-- R52: a write through one slot is read at once through any other slot that shows the same bank, and through the screen port when it shows
that bank. -/
def Obligations.WritesAreSeenThroughEveryAlias : Prop :=
  ∀ (s : State) (a : Addr) (d : Byte) (b : BitVec 3), s.slotWr (slotOf a) = .ram b →
    ∃ t, exec (.memWrite a d) s = .next t ∧
      (∀ x : Addr, s.slotRd (slotOf x) = .ram b → offsetOf x = offsetOf a →
        exec (.memRead x) t = .next { t with returned := .byte d }) ∧
      (b = (if s.screenSel = 1#1 then 7#3 else 5#3) →
        exec (.screenRead (offsetOf a)) t = .next { t with returned := .byte d })

/-- R82, R125, R130 under the invariant of R31: a slot is contended when contention is enabled and its bank is a contended one; slot 0 never is
(`ROM_CONTENDED` false is the spec's decision D6, log 10; contention disabled, D10, log 18). That the answer is the tag whatever the table holds, an
all-zero CT too, is the spec's decision D18 (log 19). -/
def Obligations.IsContendedFollowsTheMappedBank : Prop :=
  ∀ (s : State) (a : Addr), Inv s →
    exec (.memIsContended a) s = .next { s with returned := .bool (
      if a.toNat < 0x4000 then false
      else s.params.contentionEnabled &&
        s.params.bankContended.get
          (if a.toNat < 0x8000 then 5#3 else if a.toNat < 0xC000 then s.params.slot2Bank else s.hiBank).toFin) }

/-- R82: what `MEM_ISCONTENDED` returns in any state: the tag of the slot, whatever the offset. That a slot's table equals the real one by identity,
held as a tag, and not by contents is the spec's decision D18 (log 19). -/
def Obligations.IsContendedReturnsTheSlotTag : Prop :=
  ∀ (s : State) (a : Addr),
    exec (.memIsContended a) s = .next { s with returned := .bool (
      if a.toNat < 0x4000 then s.slotCont.s0 else if a.toNat < 0x8000 then s.slotCont.s1
      else if a.toNat < 0xC000 then s.slotCont.s2 else s.slotCont.s3) }

/-- R83: the wait states of a memory access: the entry of CT at `C mod L`, which exists for every `C`, where the slot's tag is set, else 0; and
the answer is periodic in `C` with period `L`. -/
def Obligations.MemContendLooksUpTheSlotTable : Prop :=
  ∀ (s : State) (a : Addr) (c : Nat),
    (∃ w, s.params.table.entries[c % s.params.table.frameLen]? = some w ∧
      exec (.memContend a c) s = .next { s with returned := .nat (
        if (if a.toNat < 0x4000 then s.slotCont.s0 else if a.toNat < 0x8000 then s.slotCont.s1
            else if a.toNat < 0xC000 then s.slotCont.s2 else s.slotCont.s3) = true then w else 0) }) ∧
    exec (.memContend a (c + s.params.table.frameLen)) s = exec (.memContend a c) s

/-- R84: the screen port reads bank 7 when `screenSel = 1` and bank 5 when it is 0, and changes nothing. The 14-bit offset is the spec's
decision D22. -/
def Obligations.ScreenReadShowsTheScreenBank : Prop :=
  ∀ (s : State) (o : Offset),
    (s.screenSel = 1#1 → exec (.screenRead o) s = .next { s with returned := .byte (s.ramByte 7#3 o) }) ∧
    (s.screenSel = 0#1 → exec (.screenRead o) s = .next { s with returned := .byte (s.ramByte 5#3 o) })

/-- R121: every entry of the no-op table is 0, at every cycle count. -/
def Obligations.NoOpTableLookupIsZero : Prop :=
  ∀ (s : State) (c : Nat), exec (.ctLookup .zt c) s = .next { s with returned := .nat 0 }

/-- R122: the lookup in the real table is the entry at `C mod L`, which exists for every natural `C`. The unbounded `C` is the spec's
decision D11 (log 20). -/
def Obligations.TableLookupIsModuloTheFrame : Prop :=
  ∀ (s : State) (c : Nat), ∃ w, s.params.table.entries[c % s.params.table.frameLen]? = some w ∧
    exec (.ctLookup .ct c) s = .next { s with returned := .nat w }

/-- R123: the memory and the I/O lookup are periodic in the cycle count, over any number of frames. -/
def Obligations.ContentionIsPeriodic : Prop :=
  ∀ (s : State) (a : Addr) (c k : Nat),
    exec (.memContend a (c + k * s.params.table.frameLen)) s = exec (.memContend a c) s ∧
    exec (.ioContend a (c + k * s.params.table.frameLen)) s = exec (.ioContend a c) s

/-- R126: with contention disabled every tag is false, no slot is contended and every wait is 0. The behaviour when disabled is the spec's
decision D10 (log 18). -/
def Obligations.DisabledContentionNeverWaits : Prop :=
  ∀ (s : State) (a : Addr) (c : Nat), Inv s → s.params.contentionEnabled = false →
    (∀ b : ReadBank, tag s.params b = false) ∧
    exec (.memIsContended a) s = .next { s with returned := .bool false } ∧
    exec (.memContend a c) s = .next { s with returned := .nat 0 } ∧
    exec (.ioContend a c) s = .next { s with returned := .nat 0 }

/-- R128, R129: an instance whose table is the candidate of a model looks up the formula of that rule, at every cycle count, and the entries the
two rules write out. For M48 the formula is R128's as it stands. For M128 the pattern starts anew on every line, the model's choice (log 28): the
formula of R129 contradicts its own entry `CT[14589] = 6`. The candidates are the spec's general knowledge. -/
def Obligations.CandidateTablesFollowTheirFormula : Prop :=
  (∀ (s : State) (m : Model) (c : Nat), s.params.table = candidateTable m →
    s.params.table.frameLen = (match m with | .m48 => 69888 | .m128 => 70908) ∧
    exec (.ctLookup .ct c) s = .next { s with returned := .nat (
      match m with
      | .m48 =>
        if 14335 ≤ c % 69888 ∧ (c % 69888 - 14335) / 224 < 192 ∧ (c % 69888 - 14335) % 224 < 128
        then [6, 5, 4, 3, 2, 1, 0, 0].getD ((c % 69888 - 14335) % 8) 0 else 0
      | .m128 =>
        if 14361 ≤ c % 70908 ∧ (c % 70908 - 14361) / 228 < 192 ∧ (c % 70908 - 14361) % 228 < 128
        then [6, 5, 4, 3, 2, 1, 0, 0].getD ((c % 70908 - 14361) % 228 % 8) 0 else 0) }) ∧
  [14335, 14336, 14340, 14341, 14342, 14343, 14462, 14463, 14559, 14334, 0, 57119, 57343].map (candidateEntry .m48) =
    [6, 5, 1, 0, 0, 6, 0, 0, 6, 0, 0, 6, 0] ∧
  [14361, 14362, 14367, 14368, 14369, 14489, 14589, 14360].map (candidateEntry .m128) = [6, 5, 0, 0, 6, 0, 6, 0]

/-! ### The paging register -/

/-- R90: an accepted paging byte, through every row of `SET_PAGING`: the bank, its tag, the ROM, the screen and the lock fields, and
nothing else but `pagingValue`, whose storing is the spec's decision D9 (log 15). That the rows `SET_PAGING.locked` and `SET_PAGING.m48` also accept
the byte in this state is the model's reading of the three rows as one operation (log 5, DEDUCED). -/
def Obligations.AcceptedPagingSetsEveryField : Prop :=
  ∀ (s : State) (v : Byte) (i : Instr), (i = .setPaging v ∨ i = .setPagingLocked v ∨ i = .setPagingM48 v) →
    s.params.model = .m128 → s.locked = false →
    exec i s = .next { s with
      hiBank := v.extractLsb' 0 3
      slotCont := { s.slotCont with
        s3 := s.params.contentionEnabled && s.params.bankContended.get (v.extractLsb' 0 3).toFin }
      romSel := v.extractLsb' 4 1
      screenSel := v.extractLsb' 3 1
      locked := v.getLsbD 5
      pagingValue := v
      returned := .none }

/-- R91: while locked, no row of `SET_PAGING` and no byte changes anything. That `pagingValue` stays too is the spec's decision D9 (log 15); that
all three rows are one operation is the model's reading (log 5, DEDUCED). -/
def Obligations.LockedPagingIsIgnored : Prop :=
  ∀ (s : State) (v : Byte) (i : Instr), (i = .setPaging v ∨ i = .setPagingLocked v ∨ i = .setPagingM48 v) →
    s.locked = true → exec i s = .next { s with returned := .none }

/-- R92: on M48 no row of `SET_PAGING` changes anything, whatever the byte and the lock; the paging fields are 0 for ever; and a port write that
matches the paging arm has no effect on the block, while its ULA arm, if that matches too, still acts. The order of the events of an even address
and the level 0 or 1 are the spec's decisions D12 and D13 (log 22); that all three rows are one operation is the model's reading (log 5, DEDUCED). -/
def Obligations.PagingOnM48IsIgnored : Prop :=
  (∀ (s : State) (v : Byte) (i : Instr), (i = .setPaging v ∨ i = .setPagingLocked v ∨ i = .setPagingM48 v) →
    s.params.model = .m48 → exec i s = .next { s with returned := .none }) ∧
  (∀ s : State, Inv s → s.params.model = .m48 →
    s.hiBank = 0#3 ∧ s.romSel = 0#1 ∧ s.screenSel = 0#1 ∧ s.locked = false ∧ s.pagingValue = 0#8) ∧
  (∀ (s : State) (a : Addr) (d : Byte) (c : Nat), s.params.model = .m48 → a &&& 0x8002#16 = 0x0000#16 →
    (a &&& 0x0001#16 ≠ 0x0000#16 →
      exec (.ioWrite a d c) s = .next { s with out := s.out ++ [.setPaging d], returned := .none }) ∧
    (a &&& 0x0001#16 = 0x0000#16 →
      exec (.ioWrite a d c) s = .next { s with
        out := s.out ++ [.setBorder (d.extractLsb' 0 3), .updateBuzzer (d.extractLsb' 4 1) c, .setPaging d]
        returned := .none }))

/-- R94: the paging laws of JSS2 section 8. (a) After an accepted byte slot 3 reads and writes bank `v & 0x07`. (b) After bit 5 was set every
later byte is ignored. (c) With ROM 0 selected address 0 reads `ROM[0][0]`, and after `0x10` to port `0x7FFD` it reads `ROM[1][0]`.
That an ignored byte leaves `pagingValue` too is the spec's decision D9 (log 15). -/
def Obligations.PagingLawsOfTheSource : Prop :=
  (∀ (s : State) (v w : Byte), s.params.model = .m128 → s.locked = false → ∃ t, exec (.setPaging v) s = .next t ∧
    t.slotRd .s3 = .ram (v.extractLsb' 0 3) ∧ t.slotWr .s3 = .ram (v.extractLsb' 0 3) ∧
    (v.getLsbD 5 = true → exec (.setPaging w) t = .next { t with returned := .none })) ∧
  (∀ s : State, s.params.model = .m128 → s.locked = false → s.romSel = 0#1 →
    exec (.memRead 0x0000#16) s = .next { s with returned := .byte (s.romByte 0#1 0#14) } ∧
    ∃ t, exec (.ioWrite 0x7FFD#16 0x10#8 0) s = .next t ∧
      exec (.memRead 0x0000#16) t = .next { t with returned := .byte (s.romByte 1#1 0#14) })

/-- R166: the lock is one-way. The locking byte's own fields are applied; and in a locked state no operation but `RESET` (or a new `CONSTRUCT`)
unlocks or changes a paging field. That `pagingValue` stays as well when a locked paging write is ignored is the spec's decision D9 (log 15). -/
def Obligations.LockIsOneWayUntilReset : Prop :=
  (∀ (s : State) (v : Byte), s.params.model = .m128 → s.locked = false → v.getLsbD 5 = true →
    ∃ t, exec (.setPaging v) s = .next t ∧ t.locked = true ∧ t.hiBank = v.extractLsb' 0 3 ∧ t.romSel = v.extractLsb' 4 1 ∧
      t.screenSel = v.extractLsb' 3 1) ∧
  (∀ (i : Instr) (s : State), s.locked = true → endsLock i = false → ∃ t, exec i s = .next t ∧ t.locked = true ∧
    t.hiBank = s.hiBank ∧ t.romSel = s.romSel ∧ t.screenSel = s.screenSel ∧ t.pagingValue = s.pagingValue ∧ t.slotCont = s.slotCont) ∧
  (∀ s : State, ∃ t, exec .reset s = .next t ∧ t.locked = false)

/-- R24: the write map. Slot 0 stores to the scratch bank always, and `SET_PAGING` changes the write bank of slot 3 only. -/
def Obligations.PagingMovesOnlyTheHighWriteBank : Prop :=
  ∀ (s : State) (v : Byte), ∃ t, exec (.setPaging v) s = .next t ∧
    s.slotWr .s0 = .scratch ∧ t.slotWr .s0 = .scratch ∧ t.slotWr .s1 = s.slotWr .s1 ∧ t.slotWr .s2 = s.slotWr .s2

/-- R37, R113: only `SET_PAGING`, a port write, `RESET` and `CONSTRUCT` change a paging field or a tag, and a port write only when its address
passes the paging test. -/
def Obligations.OnlyPagingOperationsChangeTheMap : Prop :=
  ∀ (i : Instr) (s : State),
    (mayPage i = false ∨ ∃ a d c, i = .ioWrite a d c ∧ a &&& 0x8002#16 ≠ 0x0000#16) →
    ∃ t, exec i s = .next t ∧ t.params = s.params ∧ t.hiBank = s.hiBank ∧ t.romSel = s.romSel ∧ t.screenSel = s.screenSel ∧
      t.locked = s.locked ∧ t.pagingValue = s.pagingValue ∧ t.slotCont = s.slotCont

/-- R170: after an accepted byte the high slot is contended exactly when the bank paged there is, and the tags of slots 0, 1 and 2 stay.
That the answer does not depend on what CT holds is the spec's decision D18 (log 19), the disabled case its decision D10 (log 18). -/
def Obligations.ContentionFollowsTheHighBank : Prop :=
  ∀ (s : State) (v : Byte) (a : Addr), s.params.model = .m128 → s.locked = false → ∃ t, exec (.setPaging v) s = .next t ∧
    (0xC000 ≤ a.toNat → exec (.memIsContended a) t = .next { t with returned := .bool (
      s.params.contentionEnabled && s.params.bankContended.get (v.extractLsb' 0 3).toFin) }) ∧
    t.slotCont.s0 = s.slotCont.s0 ∧ t.slotCont.s1 = s.slotCont.s1 ∧ t.slotCont.s2 = s.slotCont.s2

/-! ### Snapshots, construction and reset -/

/-- R56: the byte layout of a snapshot: source byte `i` of a supplied page `p` in 0..7 goes to `RAM[p][i]`, and with a page for bank 5
address `0x4000` then reads its byte 0. -/
def Obligations.SnapshotPagesFillTheirBanks : Prop :=
  ∀ (s : State) (pages : List (Int × BankImage)), (Instr.loadSnapshot pages).wellFormed = true →
    ∃ t, exec (.loadSnapshot pages) s = .next t ∧
      (∀ (b : BitVec 3) (src : BankImage) (o : Offset), ((b.toNat : Int), src) ∈ pages →
        src.bytes[o.toNat]? = some (t.ramByte b o)) ∧
      (∀ src : BankImage, (5, src) ∈ pages → ∃ b0, src.bytes[0]? = some b0 ∧
        exec (.memRead 0x4000#16) t = .next { t with returned := .byte b0 })

/-- R93: the frame of a snapshot: a bank with no page, and every page outside 0..7, changes nothing; no field but RAM changes. The range
0..7 on both models is the spec's decisions D8 and D17 (log 24). -/
def Obligations.SnapshotChangesOnlyNamedBanks : Prop :=
  ∀ (s : State) (pages : List (Int × BankImage)), ∃ t, exec (.loadSnapshot pages) s = .next t ∧
    (∀ (b : BitVec 3) (o : Offset), (∀ e ∈ pages, e.1 ≠ (b.toNat : Int)) → t.ramByte b o = s.ramByte b o) ∧
    t = { s with ram := t.ram, returned := .none } ∧
    ((∀ e ∈ pages, e.1 < 0 ∨ 7 < e.1) → t = { s with returned := .none })

/-- R160: the instance `CONSTRUCT` builds, from any state: the default mapping, the tags of the banks mapped, the given ROM images, an empty
trace; the records still to be served stay (log 17). That an instance starts in the default mapping is the spec's decision D8 (log 24). RAM is a
fresh free value (D15, log 6) and not spoken of. -/
def Obligations.ConstructBuildsTheDefaultMapping : Prop :=
  ∀ (s : State) (p : Params) (roms : List BankImage), (Instr.construct p roms).wellFormed = true →
    ∃ t, exec (.construct p roms) s = .next t ∧
      t.params = p ∧ t.hiBank = 0#3 ∧ t.romSel = 0#1 ∧ t.screenSel = 0#1 ∧ t.locked = false ∧ t.pagingValue = 0#8 ∧ t.out = [] ∧
      t.slotCont.s0 = tag p (.rom 0#1) ∧ t.slotCont.s1 = tag p (.ram 5#3) ∧ t.slotCont.s2 = tag p (.ram p.slot2Bank) ∧
      t.slotCont.s3 = tag p (.ram 0#3) ∧ t.pending = s.pending ∧
      (∀ (r : BitVec 1) (o : Offset) (image : BankImage), roms[r.toNat]? = some image →
        image.bytes[o.toNat]? = some (t.romByte r o))

/-- R161: `RESET`. On M128, locked or not, it restores the default mapping; on M48 it clears the lock and its `SET_PAGING(0)` is a no-op, and
in every sound state the paging fields hold the same values after it. No other operation in the life of an instance clears the lock
(a new `CONSTRUCT` starts one that is unlocked, R29). That `RESET` changes nothing else is its reach, the spec's decision D24 (log 25). -/
def Obligations.ResetRestoresTheDefaultMapping : Prop :=
  (∀ s : State, s.params.model = .m128 →
    exec .reset s = .next { s with
      hiBank := 0#3
      slotCont := { s.slotCont with s3 := tag s.params (.ram 0#3) }
      romSel := 0#1
      screenSel := 0#1
      locked := false
      pagingValue := 0#8
      returned := .none }) ∧
  (∀ s : State, s.params.model = .m48 → exec .reset s = .next { s with locked := false, returned := .none }) ∧
  (∀ s : State, Inv s → s.params.model = .m48 → exec .reset s = .next { s with returned := .none } ∧
    s.hiBank = 0#3 ∧ s.romSel = 0#1 ∧ s.screenSel = 0#1 ∧ s.locked = false ∧ s.pagingValue = 0#8 ∧
    s.slotCont.s3 = tag s.params (.ram 0#3)) ∧
  (∀ (i : Instr) (s t : State), s.locked = true → exec i s = .next t → t.locked = false →
    i = .reset ∨ ∃ p roms, i = .construct p roms)

/-- R163: what `RESET` does not touch, on either model: every byte of RAM, ROM and scratch, the tags of slots 0 to 2, the constants, the trace.
The reach of `RESET` is the spec's decision D24 (log 25). -/
def Obligations.ResetKeepsBanksAndConstants : Prop :=
  ∀ s : State, ∃ t, exec .reset s = .next t ∧ t.ram = s.ram ∧ t.rom = s.rom ∧ t.scratch = s.scratch ∧ t.params = s.params ∧
    t.slotCont.s0 = s.slotCont.s0 ∧ t.slotCont.s1 = s.slotCont.s1 ∧ t.slotCont.s2 = s.slotCont.s2 ∧ t.out = s.out ∧
    t.draws = s.draws

/-- R162: the values at power-on. That power-on is the state after `CONSTRUCT` is the spec's decision D8 (logs 24 and 30); the ROM
images and parameters are the OPEN ones (logs 7 and 8). -/
def Obligations.PowerOnValues : Prop :=
  State.reset.hiBank = 0#3 ∧ State.reset.romSel = 0#1 ∧ State.reset.screenSel = 0#1 ∧ State.reset.locked = false ∧
  State.reset.pagingValue = 0#8 ∧ State.reset.out = [] ∧
  State.reset.slotCont.s0 = tag Config.params (.rom 0#1) ∧ State.reset.slotCont.s1 = tag Config.params (.ram 5#3) ∧
  State.reset.slotCont.s2 = tag Config.params (.ram Config.params.slot2Bank) ∧
  State.reset.slotCont.s3 = tag Config.params (.ram 0#3) ∧
  (∀ (r : BitVec 1) (o : Offset), State.reset.romByte r o = Config.romImage (romKey r o))

/-! ### Port operations -/

/-- R101: the keyboard arm polls with the full address and returns the drawn byte, recording both. The byte is a free value: it is
`Config.drawByte` at the draw counter, and the next draw is another one (log 11, the spec's decision D14). -/
def Obligations.KeyboardReadPollsWithTheFullAddress : Prop :=
  ∀ (s : State) (a : Addr), ∃ b, b = Config.drawByte s.draws ∧
    exec (.iorKbd a) s = .next { s with out := s.out ++ [.kbdPoll a b], returned := .byte b, draws := s.draws + 1 }

/-- R102: the sound data arm returns the drawn byte and records the call. The byte is a free value (log 11). -/
def Obligations.SoundDataReadReturnsTheDrawnByte : Prop :=
  ∀ (s : State) (a : Addr), ∃ b, b = Config.drawByte s.draws ∧
    exec (.iorAyData a) s = .next { s with out := s.out ++ [.readSoundRegister b], returned := .byte b, draws := s.draws + 1 }

/-- R103: the joystick stub returns 0, calls no peripheral and emits no event; it is the arm of an odd address that the sound arm does not take
and whose bits 7 to 5 are 0. -/
def Obligations.JoystickReadReturnsZero : Prop :=
  ∀ (s : State) (a : Addr), exec (.iorJoy a) s = .next { s with returned := .byte 0x00#8 } ∧
    (a.getLsbD 0 = true → a &&& 0xC002#16 ≠ 0xC000#16 → a &&& 0x00E0#16 = 0x0000#16 →
      exec (.ioRead a) s = .next { s with returned := .byte 0x00#8 })

/-- R104: the default arm returns the constant `0xFF`, calls no peripheral and emits no event. -/
def Obligations.UnmatchedReadReturnsTheFloatingByte : Prop :=
  ∀ (s : State) (a : Addr), exec (.iorFloat a) s = .next { s with returned := .byte 0xFF#8 } ∧
    (a &&& 0x0001#16 ≠ 0x0000#16 → a &&& 0xC002#16 ≠ 0xC000#16 → a &&& 0x00E0#16 ≠ 0x0000#16 →
      exec (.ioRead a) s = .next { s with returned := .byte 0xFF#8 })

/-- R105 with R70: `IO_WRITE` by the eight lines of the truth table. The border and buzzer calls come first, then the one other arm
(the order is the spec's decision D12, log 22). -/
def Obligations.PortWriteRunsEveryMatchingArm : Prop :=
  ∀ (s : State) (a : Addr) (d : Byte) (c : Nat),
    ∀ u, u = (if a &&& 0x0001#16 = 0x0000#16 then
        { s with out := s.out ++ [.setBorder (d.extractLsb' 0 3), .updateBuzzer (d.extractLsb' 4 1) c] } else s) →
    (a &&& 0x8002#16 = 0x0000#16 → exec (.ioWrite a d c) s = exec (.iowPaging a d c) u) ∧
    (a &&& 0xC002#16 = 0xC000#16 → exec (.ioWrite a d c) s = exec (.iowAySel a d c) u) ∧
    (a &&& 0xC002#16 = 0x8000#16 → exec (.ioWrite a d c) s = exec (.iowAyData a d c) u) ∧
    (a &&& 0x0002#16 = 0x0002#16 → exec (.ioWrite a d c) s = exec (.iowNone a d c) u)

/-- R106: the ULA arm: the border colour, then the buzzer level with the cycle count, and nothing else. Call order and level are the spec's
decisions D12 and D13 (log 22). -/
def Obligations.UlaWriteSetsBorderThenBuzzer : Prop :=
  ∀ (s : State) (a : Addr) (d : Byte) (c : Nat),
    exec (.iowUla a d c) s = .next { s with
      out := s.out ++ [.setBorder (d.extractLsb' 0 3), .updateBuzzer (d.extractLsb' 4 1) c], returned := .none }

/-- R107: the paging arm emits `SetPaging(D)` and performs `SET_PAGING(D)` with the whole byte, whatever the cycle count; the event stands also
when the byte is then ignored. A port write runs it whenever its address passes the paging test, on either model. That an ignored byte
leaves `pagingValue` too is the spec's decision D9 (log 15). -/
def Obligations.PagingArmForwardsTheWholeByte : Prop :=
  ∀ (s : State) (a : Addr) (d : Byte) (c : Nat),
    exec (.iowPaging a d c) s = exec (.setPaging d) { s with out := s.out ++ [.setPaging d] } ∧
    (a &&& 0x8002#16 = 0x0000#16 → a &&& 0x0001#16 ≠ 0x0000#16 → exec (.ioWrite a d c) s = exec (.iowPaging a d c) s) ∧
    (a &&& 0x8002#16 = 0x0000#16 → ∃ t u es, exec (.ioWrite a d c) s = .next t ∧ exec (.setPaging d) s = .next u ∧
      t.out = s.out ++ es ∧ Event.setPaging d ∈ es ∧ t.hiBank = u.hiBank ∧ t.romSel = u.romSel ∧ t.screenSel = u.screenSel ∧
      t.locked = u.locked ∧ t.pagingValue = u.pagingValue ∧ t.slotCont = u.slotCont) ∧
    (s.params.model = .m128 → s.locked = false → ∃ t, exec (.iowPaging a d c) s = .next t ∧
      t.out = s.out ++ [.setPaging d] ∧ t.hiBank = d.extractLsb' 0 3 ∧ t.romSel = d.extractLsb' 4 1 ∧
      t.screenSel = d.extractLsb' 3 1 ∧ t.locked = d.getLsbD 5) ∧
    (s.params.model = .m48 ∨ s.locked = true →
      exec (.iowPaging a d c) s = .next { s with out := s.out ++ [.setPaging d], returned := .none })

/-- R108: the register-select arm passes the low four bits and no cycle count; every port write whose address passes its test makes the call. -/
def Obligations.SoundSelectPassesTheLowNibble : Prop :=
  ∀ (s : State) (a : Addr) (d : Byte) (c : Nat),
    exec (.iowAySel a d c) s = .next { s with out := s.out ++ [.selectSoundRegister (d.extractLsb' 0 4)], returned := .none } ∧
    (a &&& 0x0001#16 ≠ 0x0000#16 → a &&& 0xC002#16 = 0xC000#16 →
      exec (.ioWrite a d c) s = .next { s with out := s.out ++ [.selectSoundRegister (d.extractLsb' 0 4)], returned := .none }) ∧
    (a &&& 0xC002#16 = 0xC000#16 → ∃ es, exec (.ioWrite a d c) s = .next { s with out := s.out ++ es, returned := .none } ∧
      Event.selectSoundRegister (d.extractLsb' 0 4) ∈ es)

/-- R109: the sound data arm passes all eight bits with the cycle count, unreduced; every port write whose address passes its test makes the
call. -/
def Obligations.SoundDataWritePassesByteAndCount : Prop :=
  ∀ (s : State) (a : Addr) (d : Byte) (c : Nat),
    exec (.iowAyData a d c) s = .next { s with out := s.out ++ [.writeSoundRegister d c], returned := .none } ∧
    (a &&& 0x0001#16 ≠ 0x0000#16 → a &&& 0xC002#16 = 0x8000#16 →
      exec (.ioWrite a d c) s = .next { s with out := s.out ++ [.writeSoundRegister d c], returned := .none }) ∧
    (a &&& 0xC002#16 = 0x8000#16 → ∃ es, exec (.ioWrite a d c) s = .next { s with out := s.out ++ es, returned := .none } ∧
      Event.writeSoundRegister d c ∈ es)

/-- R110: a write to an address with bits 1 and 0 set has no effect at all. -/
def Obligations.UnmatchedWriteDoesNothing : Prop :=
  ∀ (s : State) (a : Addr) (d : Byte) (c : Nat),
    exec (.iowNone a d c) s = .next { s with returned := .none } ∧
    (a.getLsbD 1 = true → a.getLsbD 0 = true → exec (.ioWrite a d c) s = .next { s with returned := .none })

/-- R111: a port is a ULA port when bit 0 of its address is clear, and the query changes nothing. -/
def Obligations.UlaPortIsAnEvenAddress : Prop :=
  ∀ (s : State) (a : Addr), exec (.ioIsUlaPort a) s = .next { s with returned := .bool (a.toNat % 2 == 0) }

/-- R112: the port wait is CT at `C mod L` for every port address, whatever is paged, and 0 with contention disabled (the spec's decision D10,
log 18). -/
def Obligations.PortContentionIgnoresTheAddress : Prop :=
  ∀ (s : State) (a : Addr) (c : Nat), ∃ w, s.params.table.entries[c % s.params.table.frameLen]? = some w ∧
    exec (.ioContend a c) s = .next { s with returned := .nat (if s.params.contentionEnabled = true then w else 0) }

/-- R113: of the block's own state a port write changes only what `SET_PAGING` changes, never a byte of any bank; a port read and the port
queries change nothing of it. -/
def Obligations.PortOperationsChangeOnlyPaging : Prop :=
  ∀ (s : State) (a : Addr) (d : Byte) (c : Nat),
    (∃ t, exec (.ioWrite a d c) s = .next t ∧ t = { s with
      hiBank := t.hiBank, slotCont := { s.slotCont with s3 := t.slotCont.s3 }, romSel := t.romSel, screenSel := t.screenSel,
      locked := t.locked, pagingValue := t.pagingValue, out := t.out, returned := t.returned }) ∧
    (∀ i : Instr, (i = .ioRead a ∨ i = .ioIsUlaPort a ∨ i = .ioContend a c) →
      ∃ t, exec i s = .next t ∧ t = { s with out := t.out, returned := t.returned, draws := t.draws })

/-! ### Whole-machine rules -/

/-- R21: the ROM banks hold their images from `CONSTRUCT` on: every other operation leaves every byte of them, and the constants of the
instance, as they are. -/
def Obligations.RomIsNeverWritten : Prop :=
  (∀ (i : Instr) (s : State), (∀ p roms, i ≠ .construct p roms) →
    ∃ t, exec i s = .next t ∧ (∀ (r : BitVec 1) (o : Offset), t.romByte r o = s.romByte r o) ∧ t.params = s.params) ∧
  (∀ (s : State) (p : Params) (roms : List BankImage), (Instr.construct p roms).wellFormed = true →
    ∃ t, exec (.construct p roms) s = .next t ∧
      ∀ (r : BitVec 1) (o : Offset) (image : BankImage), roms[r.toNat]? = some image →
        image.bytes[o.toNat]? = some (t.romByte r o))

/-- R20: RAM banks are written by `MEM_WRITE` and `LOAD_SNAPSHOT` and by nothing else in the life of an instance (`CONSTRUCT` starts a new one);
paging keeps every byte of every bank. -/
def Obligations.RamIsWrittenByTwoOperationsOnly : Prop :=
  ∀ (i : Instr) (s : State), mayWriteRam i = false →
    ∃ t, exec i s = .next t ∧ ∀ (b : BitVec 3) (o : Offset), t.ramByte b o = s.ramByte b o

/-- R22: the scratch bank is unobservable: whatever it holds, a step answers the same and leaves the same state but for the scratch bank itself.
That the bank is kept in the state is the model's choice (log 14). -/
def Obligations.ScratchIsUnobservable : Prop :=
  ∀ (s t : State) (m : Memory), step s = .next t → ∃ m', step { s with scratch := m } = .next { t with scratch := m' }

/-- R14: the trace only grows, at its end, and by the calls of R9 alone; `RESET` and every operation but a port read, a port write and
`CONSTRUCT` leave it as it is. The trace itself is the spec's decision D14
(logs 11 and 13), that `RESET` emits nothing its decision D24 (log 25). -/
def Obligations.TraceOnlyGrows : Prop :=
  (∀ (i : Instr) (s : State), (∀ p roms, i ≠ .construct p roms) → ∃ t es, exec i s = .next t ∧ t.out = s.out ++ es) ∧
  (∀ (i : Instr) (s : State),
    (i = .reset ∨ (∃ v, i = .setPaging v ∨ i = .setPagingLocked v ∨ i = .setPagingM48 v) ∨ (∃ a, i = .memRead a) ∨
      (∃ a d, i = .memWrite a d) ∨ (∃ a, i = .memIsContended a) ∨ (∃ a c, i = .memContend a c) ∨ (∃ o, i = .screenRead o) ∨
      (∃ l, i = .loadSnapshot l) ∨ (∃ a, i = .ioIsUlaPort a) ∨ (∃ a c, i = .ioContend a c) ∨ (∃ x c, i = .ctLookup x c)) →
    ∃ t, exec i s = .next t ∧ t.out = s.out)

/-- R51: a repeated memory write leaves the same state; a repeated port write leaves the block in the same state, sends its calls again, and
only the trace tells. -/
def Obligations.RepeatedWritesAreIdempotent : Prop :=
  (∀ (s : State) (a : Addr) (d : Byte), ∃ t, exec (.memWrite a d) s = .next t ∧
    exec (.memWrite a d) t = .next t) ∧
  (∀ (s : State) (a : Addr) (d : Byte) (c : Nat), ∃ t es, exec (.ioWrite a d c) s = .next t ∧ t.out = s.out ++ es ∧
    exec (.ioWrite a d c) t = .next { t with out := s.out ++ es ++ es })

/-- R31, R92 and the canonical form of the storage hold at power-on, the state the spec's decision D8 gives (logs 24 and 30); the canonical form is the
model's (log 16). -/
def Obligations.PowerOnMeetsTheInvariant : Prop :=
  Inv State.reset

/-- R31 "an invariant every operation keeps": from every sound state a step leads to a sound state: the paging fields agree with the paging
byte, every slot's tag is its bank's, M48 never pages, and the storage stays in its canonical form within its banks. -/
def Obligations.StepKeepsTheInvariant : Prop :=
  ∀ s t : State, Inv s → step s = .next t → Inv t
end

