-- ==== Sys2Proof/Laws/Memory.lean ====
section
/-! SUPPORT. The laws of byte storage: what a block store and a byte store change, that they keep the canonical form, and that a block store is the
byte loop of 41_paging_ops.md R93. -/

namespace Sys2Proof.Machine

/-! ### Looking a key up -/

theorem lookupCell_append (l r : List Host.Cell) (a : Nat) :
    lookupCell (l ++ r) a = (lookupCell l a).or (lookupCell r a) := by
  induction l with
  | nil => rfl
  | cons c l ih =>
    obtain ⟨k, b⟩ := c
    simp only [List.cons_append, lookupCell]
    split
    · rfl
    · exact ih

theorem lookupCell_eq_none {l : List Host.Cell} {a : Nat} (h : ∀ c ∈ l, c.1 ≠ a) : lookupCell l a = none := by
  induction l with
  | nil => rfl
  | cons c l ih =>
    obtain ⟨k, b⟩ := c
    simp only [lookupCell, if_neg (h (k, b) (by simp))]
    exact ih fun c hc => h c (by simp [hc])

/-- A filter by key that keeps `a` leaves what `a` looks up as. -/
theorem lookupCell_filter (p : Nat → Bool) (l : List Host.Cell) (a : Nat) (h : p a = true) :
    lookupCell (l.filter fun c => p c.1) a = lookupCell l a := by
  induction l with
  | nil => rfl
  | cons c l ih =>
    obtain ⟨k, b⟩ := c
    by_cases hk : k = a
    · subst hk; simp [h, lookupCell]
    · by_cases hp : p k = true
      · simp [hp, lookupCell, hk, ih]
      · simp [hp, lookupCell, hk, ih]

/-! ### The cells of a block -/

theorem cellsFrom_keys (fill : Fill) (bytes : List Byte) (a : Nat) :
    ∀ c ∈ cellsFrom fill a bytes, a ≤ c.1 ∧ c.1 < a + bytes.length ∧ c.2 ≠ fill.byteAt c.1 := by
  induction bytes generalizing a with
  | nil => simp [cellsFrom]
  | cons b rest ih =>
    intro c hc
    simp only [cellsFrom] at hc
    split at hc
    · have := ih (a + 1) c hc
      simp only [List.length_cons]
      exact ⟨by omega, by omega, this.2.2⟩
    · rename_i hb
      rcases List.mem_cons.mp hc with rfl | hc
      · simpa using hb
      · have := ih (a + 1) c hc
        simp only [List.length_cons]
        exact ⟨by omega, by omega, this.2.2⟩

theorem cellsFrom_rising (fill : Fill) (bytes : List Byte) (a : Nat) :
    (cellsFrom fill a bytes).Pairwise fun c d => c.1 < d.1 := by
  induction bytes generalizing a with
  | nil => exact List.Pairwise.nil
  | cons b rest ih =>
    simp only [cellsFrom]
    split
    · exact ih (a + 1)
    · exact List.Pairwise.cons (fun c hc => (cellsFrom_keys fill rest (a + 1) c hc).1) (ih (a + 1))

/-- A block reads back as its bytes, its cells and the fill taken together. -/
theorem cellsFrom_read (fill : Fill) (bytes : List Byte) (a i : Nat) (h : i < bytes.length) :
    (lookupCell (cellsFrom fill a bytes) (a + i)).getD (fill.byteAt (a + i)) = bytes[i] := by
  induction bytes generalizing a i with
  | nil => simp at h
  | cons b rest ih =>
    cases i with
    | zero =>
      simp only [cellsFrom]
      split
      · rename_i hb
        rw [lookupCell_eq_none fun c hc => by have := (cellsFrom_keys fill rest (a + 1) c hc).1; omega]
        simp [hb]
      · simp [lookupCell]
    | succ i =>
      have hi : i < rest.length := by simpa using h
      have key : a + (i + 1) = (a + 1) + i := by omega
      simp only [cellsFrom]
      split
      · rw [key]; simpa using ih (a + 1) i hi
      · simp only [lookupCell, if_neg (show a ≠ a + (i + 1) by omega)]
        rw [key]; simpa using ih (a + 1) i hi

/-! ### A block store -/

@[simp] theorem Memory.load_fill (m : Memory) (a : Nat) (bytes : List Byte) : (m.load a bytes).fill = m.fill := rfl

/-- Inside the block: byte `i` at key `a + i` (R56). -/
theorem Memory.read_load_inside (m : Memory) (a i : Nat) (bytes : List Byte) (h : i < bytes.length) :
    (m.load a bytes).read (a + i) = bytes[i] := by
  have below : lookupCell (m.cells.filter fun c => decide (c.1 < a)) (a + i) = none :=
    lookupCell_eq_none fun c hc => by simp at hc; omega
  have above : lookupCell (m.cells.filter fun c => decide (a + bytes.length ≤ c.1)) (a + i) = none :=
    lookupCell_eq_none fun c hc => by simp at hc; omega
  simp only [Memory.read, Memory.load, lookupCell_append, below, above, Option.none_or, Option.or_none]
  exact cellsFrom_read m.fill bytes a i h

/-- Outside the block: every byte reads as before. -/
theorem Memory.read_load_outside (m : Memory) (a k : Nat) (bytes : List Byte) (h : k < a ∨ a + bytes.length ≤ k) :
    (m.load a bytes).read k = m.read k := by
  have block : lookupCell (cellsFrom m.fill a bytes) k = none :=
    lookupCell_eq_none fun c hc => by have := cellsFrom_keys m.fill bytes a c hc; omega
  simp only [Memory.read, Memory.load, lookupCell_append, block, Option.or_none]
  rcases h with h | h
  · rw [lookupCell_filter (fun j => decide (j < a)) m.cells k (by simpa using h),
      lookupCell_eq_none (l := m.cells.filter _) fun c hc => by simp at hc; omega]
    simp
  · rw [lookupCell_filter (fun j => decide (a + bytes.length ≤ j)) m.cells k (by simpa using h),
      lookupCell_eq_none (l := m.cells.filter _) fun c hc => by simp at hc; omega]
    simp

/-- What the canonical form says. -/
theorem Memory.wf_iff (size : Nat) (m : Memory) :
    m.wf size = true ↔ m.cells.Pairwise (fun c d => c.1 < d.1) ∧ ∀ c ∈ m.cells, c.1 < size ∧ c.2 ≠ m.fill.byteAt c.1 := by
  simp [Memory.wf]

/-- A block store within the storage keeps the canonical form. -/
theorem Memory.load_wf (size : Nat) (m : Memory) (a : Nat) (bytes : List Byte) (h : m.wf size = true)
    (fits : a + bytes.length ≤ size) : (m.load a bytes).wf size = true := by
  rw [Memory.wf_iff] at h ⊢
  obtain ⟨rising, cells⟩ := h
  refine ⟨?_, ?_⟩
  · simp only [Memory.load]
    refine List.pairwise_append.mpr ⟨List.pairwise_append.mpr ⟨rising.filter _, cellsFrom_rising _ _ _, ?_⟩, rising.filter _, ?_⟩
    · intro c hc d hd
      have := cellsFrom_keys m.fill bytes a d hd
      simp at hc; omega
    · intro c hc d hd
      simp only [List.mem_filter, decide_eq_true_eq] at hd
      rcases List.mem_append.mp hc with hc | hc
      · simp only [List.mem_filter, decide_eq_true_eq] at hc; omega
      · have := cellsFrom_keys m.fill bytes a c hc; omega
  · intro c hc
    simp only [Memory.load, List.mem_append, List.mem_filter] at hc
    rcases hc with (hc | hc) | hc
    · exact cells c hc.1
    · have := cellsFrom_keys m.fill bytes a c hc
      exact ⟨by omega, this.2.2⟩
    · exact cells c hc.1

/-- An empty storage is in the canonical form. -/
@[simp] theorem Memory.blank_wf (size : Nat) (fill : Fill) : (Memory.blank fill).wf size = true := by
  simp [Memory.wf, Memory.blank]

/-- A block store is the loop over its bytes (R93, R160). -/
theorem Memory.load_cons (m : Memory) (a : Nat) (b : Byte) (rest : List Byte) :
    m.load a (b :: rest) = (m.write a b).load (a + 1) rest := by
  have one : cellsFrom m.fill a (b :: rest) = cellsFrom m.fill a [b] ++ cellsFrom m.fill (a + 1) rest := by
    simp only [cellsFrom]; split <;> simp
  have below : (cellsFrom m.fill a [b]).filter (fun c => decide (c.1 < a + 1)) = cellsFrom m.fill a [b] :=
    List.filter_eq_self.mpr fun c hc => by have := cellsFrom_keys m.fill [b] a c hc; simp at this ⊢; omega
  have above : (cellsFrom m.fill a [b]).filter (fun c => decide (a + 1 + rest.length ≤ c.1)) = [] :=
    List.filter_eq_nil_iff.mpr fun c hc => by have := cellsFrom_keys m.fill [b] a c hc; simp at this ⊢; omega
  simp only [Memory.write, Memory.load, List.filter_append, List.filter_filter, below, above, one, List.append_assoc,
    Memory.mk.injEq, true_and, List.length_cons, List.length_nil]
  have low : m.cells.filter (fun c => decide (c.1 < a + 1) && decide (c.1 < a)) = m.cells.filter fun c => decide (c.1 < a) :=
    List.filter_congr fun c _ => by
      by_cases h : c.1 < a
      · simp [h, show c.1 < a + 1 by omega]
      · simp [h]
  have mid : m.cells.filter (fun c => decide (c.1 < a + 1) && decide (a + (0 + 1) ≤ c.1)) = [] :=
    List.filter_eq_nil_iff.mpr fun c _ => by simp only [Bool.and_eq_true, decide_eq_true_eq]; omega
  have none_low : m.cells.filter (fun c => decide (a + 1 + rest.length ≤ c.1) && decide (c.1 < a)) = [] :=
    List.filter_eq_nil_iff.mpr fun c _ => by simp; omega
  have high : m.cells.filter (fun c => decide (a + 1 + rest.length ≤ c.1) && decide (a + (0 + 1) ≤ c.1)) =
      m.cells.filter fun c => decide (a + (rest.length + 1) ≤ c.1) :=
    List.filter_congr fun c _ => by
      have : (a + 1 + rest.length ≤ c.1) ↔ (a + (rest.length + 1) ≤ c.1) := by omega
      have low : a + (rest.length + 1) ≤ c.1 → a + (0 + 1) ≤ c.1 := by omega
      by_cases h : a + (rest.length + 1) ≤ c.1 <;> simp only [this, h, decide_true, decide_false, Bool.false_and, Bool.true_and]
      simpa using low h
  rw [low, mid, none_low, high]
  simp

/-! ### A byte store -/

@[simp] theorem Memory.write_fill (m : Memory) (a : Nat) (b : Byte) : (m.write a b).fill = m.fill := rfl

/-- A byte written is read back. -/
@[simp] theorem Memory.read_write_same (m : Memory) (a : Nat) (b : Byte) : (m.write a b).read a = b :=
  m.read_load_inside a 0 [b] (by simp)

/-- Every other byte reads as before. -/
theorem Memory.read_write_other (m : Memory) {a k : Nat} (b : Byte) (h : k ≠ a) : (m.write a b).read k = m.read k :=
  m.read_load_outside a k [b] (by simp; omega)

/-- A byte store within the storage keeps the canonical form. -/
theorem Memory.write_wf (size : Nat) (m : Memory) (a : Nat) (b : Byte) (h : m.wf size = true) (fits : a < size) :
    (m.write a b).wf size = true :=
  m.load_wf size a [b] h (by simp; omega)

/-- Writing the same byte twice is writing it once (R51). -/
theorem Memory.write_write_same (m : Memory) (a : Nat) (b : Byte) : (m.write a b).write a b = m.write a b := by
  have low : (cellsFrom m.fill a [b]).filter (fun c => decide (c.1 < a)) = [] :=
    List.filter_eq_nil_iff.mpr fun c hc => by have := cellsFrom_keys m.fill [b] a c hc; simp at this ⊢; omega
  have high : (cellsFrom m.fill a [b]).filter (fun c => decide (a + [b].length ≤ c.1)) = [] :=
    List.filter_eq_nil_iff.mpr fun c hc => by have := cellsFrom_keys m.fill [b] a c hc; simp at this ⊢; omega
  have low_high : m.cells.filter (fun c => decide (c.1 < a) && decide (a + [b].length ≤ c.1)) = [] :=
    List.filter_eq_nil_iff.mpr fun c _ => by simp; omega
  have high_low : m.cells.filter (fun c => decide (a + [b].length ≤ c.1) && decide (c.1 < a)) = [] :=
    List.filter_eq_nil_iff.mpr fun c _ => by simp; omega
  simp only [Memory.write, Memory.load, List.filter_append, List.filter_filter, low, high, low_high, high_low, Bool.and_self,
    List.append_nil, List.nil_append]

/-! ### Keys -/

theorem ramKey_inj {b b' : BitVec 3} {o o' : Offset} (h : ramKey b o = ramKey b' o') : b = b' ∧ o = o' := by
  have h1 := o.isLt
  have h2 := o'.isLt
  simp only [ramKey, bankSize] at h
  exact ⟨BitVec.eq_of_toNat_eq (by omega), BitVec.eq_of_toNat_eq (by omega)⟩

theorem ramKey_lt (b : BitVec 3) (o : Offset) : ramKey b o < 8 * bankSize := by
  have h1 := b.isLt
  have h2 := o.isLt
  simp only [ramKey, bankSize]; omega

/-! ### Snapshot pages and ROM images -/

/-- A page in 0..7 keeps the canonical form of RAM, and a page outside it changes nothing (R93). -/
theorem loadPage_wf (ram : Memory) (page : Int × BankImage) (h : ram.wf (8 * bankSize) = true) :
    (loadPage ram page).wf (8 * bankSize) = true := by
  unfold loadPage
  split
  · refine ram.load_wf _ _ _ h ?_
    have := page.2.size_eq
    simp only [bankSize] at this ⊢
    omega
  · exact h

/-- Every page of a snapshot keeps the canonical form of RAM. -/
theorem loadPages_wf (pages : List (Int × BankImage)) (ram : Memory) (h : ram.wf (8 * bankSize) = true) :
    (pages.foldl loadPage ram).wf (8 * bankSize) = true := by
  induction pages generalizing ram with
  | nil => exact h
  | cons page rest ih => exact ih _ (loadPage_wf ram page h)

/-- Byte `o` of a page's own bank is the page's byte `o` (R56). -/
theorem loadPage_read_own (ram : Memory) (b : BitVec 3) (src : BankImage) (o : Offset) :
    (loadPage ram ((b.toNat : Int), src)).read (ramKey b o) =
      src.bytes[o.toNat]'(by rw [src.size_eq]; exact o.isLt) := by
  have hb := b.isLt
  simp only [loadPage, ramKey, Int.toNat_natCast]
  rw [if_pos ⟨by omega, by omega⟩]
  exact ram.read_load_inside _ _ _ _

/-- A page leaves the bytes of every other bank (R93). -/
theorem loadPage_read_other (ram : Memory) (page : Int × BankImage) (b : BitVec 3) (o : Offset) (h : page.1 ≠ (b.toNat : Int)) :
    (loadPage ram page).read (ramKey b o) = ram.read (ramKey b o) := by
  unfold loadPage
  split
  · rename_i range
    refine ram.read_load_outside _ _ _ ?_
    have size := page.2.size_eq
    have := o.isLt
    have := b.isLt
    rw [size]
    simp only [ramKey, bankSize] at this ⊢
    omega
  · rfl

/-- The bytes of the ROM images together: one bank each (R21). -/
theorem images_length (roms : List BankImage) : (roms.flatMap (·.bytes)).length = roms.length * bankSize := by
  induction roms with
  | nil => simp
  | cons image rest ih =>
    have := image.size_eq
    simp only [List.flatMap_cons, List.length_append, List.length_cons, ih, bankSize] at this ⊢
    omega

/-- The ROM banks made from images are in the canonical form. -/
theorem romOf_wf (roms : List BankImage) (size : Nat) (h : roms.length * bankSize ≤ size) : (romOf roms).wf size = true :=
  Memory.load_wf size _ 0 _ (Memory.blank_wf _ _) (by rw [images_length]; omega)

end Sys2Proof.Machine
end

