-- ==== Sys2Proof/Laws/Operands.lean ====
section
/-! SUPPORT. What the operand forms mean: the slot by the range of the address (R45), the offset and every data-byte field as a bit slice (R62, R65, R66,
R67, R68), the port tests by address bits (R70). -/

namespace Sys2Proof.Machine

/-! ### Memory addresses -/

theorem slotOf_s0 {a : Addr} (h : a.toNat < 0x4000) : slotOf a = .s0 := by
  have : (a >>> 14).toNat = 0 := by simp [BitVec.toNat_ushiftRight, Nat.shiftRight_eq_div_pow]; omega
  simp [slotOf, this]

theorem slotOf_s1 {a : Addr} (h : 0x4000 ≤ a.toNat) (h' : a.toNat < 0x8000) : slotOf a = .s1 := by
  have : (a >>> 14).toNat = 1 := by simp [BitVec.toNat_ushiftRight, Nat.shiftRight_eq_div_pow]; omega
  simp [slotOf, this]

theorem slotOf_s2 {a : Addr} (h : 0x8000 ≤ a.toNat) (h' : a.toNat < 0xC000) : slotOf a = .s2 := by
  have : (a >>> 14).toNat = 2 := by simp [BitVec.toNat_ushiftRight, Nat.shiftRight_eq_div_pow]; omega
  simp [slotOf, this]

theorem slotOf_s3 {a : Addr} (h : 0xC000 ≤ a.toNat) : slotOf a = .s3 := by
  have : (a >>> 14).toNat = 3 := by
    have := a.isLt
    simp [BitVec.toNat_ushiftRight, Nat.shiftRight_eq_div_pow]; omega
  simp [slotOf, this]

/-- Choosing by the slot is choosing by the range of the address. -/
theorem slotOf_elim {α : Sort*} (f : Slot → α) (a : Addr) :
    f (slotOf a) =
      if a.toNat < 0x4000 then f .s0 else if a.toNat < 0x8000 then f .s1 else if a.toNat < 0xC000 then f .s2 else f .s3 := by
  split
  · rename_i h; rw [slotOf_s0 h]
  · split
    · rename_i h h'; rw [slotOf_s1 (by omega) h']
    · split
      · rename_i h h'; rw [slotOf_s2 (by omega) h']
      · rw [slotOf_s3 (by omega)]

theorem offsetOf_eq (a : Addr) : offsetOf a = a.extractLsb' 0 14 := by
  apply BitVec.eq_of_toNat_eq
  simp only [offsetOf, BitVec.toNat_setWidth, BitVec.toNat_and, BitVec.extractLsb'_toNat]
  rw [show (0x3FFF#16).toNat = 2 ^ 14 - 1 from rfl, Nat.and_two_pow_sub_one_eq_mod]
  simp

/-! ### Data-byte fields -/

theorem pagBank_eq (v : Byte) : pagBank v = v.extractLsb' 0 3 := by revert v; decide

theorem pagScreen_eq (v : Byte) : pagScreen v = v.extractLsb' 3 1 := by revert v; decide

theorem pagRom_eq (v : Byte) : pagRom v = v.extractLsb' 4 1 := by revert v; decide

theorem pagLock_eq (v : Byte) : pagLock v = v.getLsbD 5 := by revert v; decide

theorem ulaBorder_eq (d : Byte) : ulaBorder d = d.extractLsb' 0 3 := by revert d; decide

theorem ulaBuzzer_eq (d : Byte) : ulaBuzzer d = d.extractLsb' 4 1 := by revert d; decide

theorem ayIndex_eq (d : Byte) : ayIndex d = d.extractLsb' 0 4 := by revert d; decide

/-! ### Port addresses -/

theorem holds_iff (t : PortTest) (a : Addr) : t.holds a = true ↔ a &&& t.mask = t.pat := by simp [PortTest.holds]

/-- A masked address is a pattern when it is so bit by bit. -/
theorem masked_eq_iff (a m p : Addr) : a &&& m = p ↔ ∀ i : Fin 16, (a.getLsbD i && m.getLsbD i) = p.getLsbD i := by
  constructor
  · rintro rfl i; simp
  · intro h
    apply BitVec.eq_of_getLsbD_eq
    intro i hi
    simpa using h ⟨i, hi⟩

theorem ulaTest_bits (a : Addr) : ulaTest.holds a = !a.getLsbD 0 := by
  rw [Bool.eq_iff_iff, holds_iff, masked_eq_iff]
  simp [ulaTest, Fin.forall_fin_succ]

theorem joyTest_bits (a : Addr) : joyTest.holds a = (!a.getLsbD 7 && !a.getLsbD 6 && !a.getLsbD 5) := by
  rw [Bool.eq_iff_iff, holds_iff, masked_eq_iff]
  simp [joyTest, Fin.forall_fin_succ]
  tauto

theorem pagingTest_bits (a : Addr) : pagingTest.holds a = (!a.getLsbD 15 && !a.getLsbD 1) := by
  rw [Bool.eq_iff_iff, holds_iff, masked_eq_iff]
  simp [pagingTest, Fin.forall_fin_succ]
  tauto

theorem ayUpperTest_bits (a : Addr) : ayUpperTest.holds a = (a.getLsbD 15 && a.getLsbD 14 && !a.getLsbD 1) := by
  rw [Bool.eq_iff_iff, holds_iff, masked_eq_iff]
  simp [ayUpperTest, Fin.forall_fin_succ]
  tauto

theorem ayLowerTest_bits (a : Addr) : ayLowerTest.holds a = (a.getLsbD 15 && !a.getLsbD 14 && !a.getLsbD 1) := by
  rw [Bool.eq_iff_iff, holds_iff, masked_eq_iff]
  simp [ayLowerTest, Fin.forall_fin_succ]
  tauto

end Sys2Proof.Machine
end

