-- ==== Sys2Proof/Laws/State.lean ====
section
/-! SUPPORT. The fields of a state after each named update (Machine/Ops.lean): one lemma per field per update, so that no later proof unfolds a
record update. -/

namespace Sys2Proof.Machine

variable (s : State)

/-! ### After the answer of an operation -/

@[simp] theorem State.answer_params (r : Ret) : (s.answer r).params = s.params := rfl
@[simp] theorem State.answer_ram (r : Ret) : (s.answer r).ram = s.ram := rfl
@[simp] theorem State.answer_rom (r : Ret) : (s.answer r).rom = s.rom := rfl
@[simp] theorem State.answer_scratch (r : Ret) : (s.answer r).scratch = s.scratch := rfl
@[simp] theorem State.answer_hiBank (r : Ret) : (s.answer r).hiBank = s.hiBank := rfl
@[simp] theorem State.answer_romSel (r : Ret) : (s.answer r).romSel = s.romSel := rfl
@[simp] theorem State.answer_screenSel (r : Ret) : (s.answer r).screenSel = s.screenSel := rfl
@[simp] theorem State.answer_locked (r : Ret) : (s.answer r).locked = s.locked := rfl
@[simp] theorem State.answer_pagingValue (r : Ret) : (s.answer r).pagingValue = s.pagingValue := rfl
@[simp] theorem State.answer_slotCont (r : Ret) : (s.answer r).slotCont = s.slotCont := rfl
@[simp] theorem State.answer_out (r : Ret) : (s.answer r).out = s.out := rfl
@[simp] theorem State.answer_returned (r : Ret) : (s.answer r).returned = r := rfl
@[simp] theorem State.answer_draws (r : Ret) : (s.answer r).draws = s.draws := rfl
@[simp] theorem State.answer_pending (r : Ret) : (s.answer r).pending = s.pending := rfl

/-! ### After an event of the trace -/

@[simp] theorem State.emit_params (e : Event) : (s.emit e).params = s.params := rfl
@[simp] theorem State.emit_ram (e : Event) : (s.emit e).ram = s.ram := rfl
@[simp] theorem State.emit_rom (e : Event) : (s.emit e).rom = s.rom := rfl
@[simp] theorem State.emit_scratch (e : Event) : (s.emit e).scratch = s.scratch := rfl
@[simp] theorem State.emit_hiBank (e : Event) : (s.emit e).hiBank = s.hiBank := rfl
@[simp] theorem State.emit_romSel (e : Event) : (s.emit e).romSel = s.romSel := rfl
@[simp] theorem State.emit_screenSel (e : Event) : (s.emit e).screenSel = s.screenSel := rfl
@[simp] theorem State.emit_locked (e : Event) : (s.emit e).locked = s.locked := rfl
@[simp] theorem State.emit_pagingValue (e : Event) : (s.emit e).pagingValue = s.pagingValue := rfl
@[simp] theorem State.emit_slotCont (e : Event) : (s.emit e).slotCont = s.slotCont := rfl
@[simp] theorem State.emit_out (e : Event) : (s.emit e).out = s.out ++ [e] := rfl
@[simp] theorem State.emit_returned (e : Event) : (s.emit e).returned = s.returned := rfl
@[simp] theorem State.emit_draws (e : Event) : (s.emit e).draws = s.draws := rfl
@[simp] theorem State.emit_pending (e : Event) : (s.emit e).pending = s.pending := rfl

/-! ### After a draw -/

@[simp] theorem State.drawn_params : s.drawn.params = s.params := rfl
@[simp] theorem State.drawn_ram : s.drawn.ram = s.ram := rfl
@[simp] theorem State.drawn_rom : s.drawn.rom = s.rom := rfl
@[simp] theorem State.drawn_scratch : s.drawn.scratch = s.scratch := rfl
@[simp] theorem State.drawn_hiBank : s.drawn.hiBank = s.hiBank := rfl
@[simp] theorem State.drawn_romSel : s.drawn.romSel = s.romSel := rfl
@[simp] theorem State.drawn_screenSel : s.drawn.screenSel = s.screenSel := rfl
@[simp] theorem State.drawn_locked : s.drawn.locked = s.locked := rfl
@[simp] theorem State.drawn_pagingValue : s.drawn.pagingValue = s.pagingValue := rfl
@[simp] theorem State.drawn_slotCont : s.drawn.slotCont = s.slotCont := rfl
@[simp] theorem State.drawn_out : s.drawn.out = s.out := rfl
@[simp] theorem State.drawn_returned : s.drawn.returned = s.returned := rfl
@[simp] theorem State.drawn_draws : s.drawn.draws = s.draws + 1 := rfl
@[simp] theorem State.drawn_pending : s.drawn.pending = s.pending := rfl

/-! ### After an accepted paging byte -/

@[simp] theorem State.acceptPaging_params (v : Byte) : (s.acceptPaging v).params = s.params := rfl
@[simp] theorem State.acceptPaging_ram (v : Byte) : (s.acceptPaging v).ram = s.ram := rfl
@[simp] theorem State.acceptPaging_rom (v : Byte) : (s.acceptPaging v).rom = s.rom := rfl
@[simp] theorem State.acceptPaging_scratch (v : Byte) : (s.acceptPaging v).scratch = s.scratch := rfl
@[simp] theorem State.acceptPaging_hiBank (v : Byte) : (s.acceptPaging v).hiBank = pagBank v := rfl
@[simp] theorem State.acceptPaging_romSel (v : Byte) : (s.acceptPaging v).romSel = pagRom v := rfl
@[simp] theorem State.acceptPaging_screenSel (v : Byte) : (s.acceptPaging v).screenSel = pagScreen v := rfl
@[simp] theorem State.acceptPaging_locked (v : Byte) : (s.acceptPaging v).locked = pagLock v := rfl
@[simp] theorem State.acceptPaging_pagingValue (v : Byte) : (s.acceptPaging v).pagingValue = v := rfl
@[simp] theorem State.acceptPaging_slotCont (v : Byte) : (s.acceptPaging v).slotCont = { s.slotCont with s3 := tag s.params (.ram (pagBank v)) } := rfl
@[simp] theorem State.acceptPaging_out (v : Byte) : (s.acceptPaging v).out = s.out := rfl
@[simp] theorem State.acceptPaging_returned (v : Byte) : (s.acceptPaging v).returned = s.returned := rfl
@[simp] theorem State.acceptPaging_draws (v : Byte) : (s.acceptPaging v).draws = s.draws := rfl
@[simp] theorem State.acceptPaging_pending (v : Byte) : (s.acceptPaging v).pending = s.pending := rfl

/-! ### After a store -/

@[simp] theorem State.store_ram_params (b : BitVec 3) (o : Offset) (d : Byte) : (s.store (.ram b) o d).params = s.params := rfl
@[simp] theorem State.store_ram_ram (b : BitVec 3) (o : Offset) (d : Byte) : (s.store (.ram b) o d).ram = s.ram.write (ramKey b o) d := rfl
@[simp] theorem State.store_ram_rom (b : BitVec 3) (o : Offset) (d : Byte) : (s.store (.ram b) o d).rom = s.rom := rfl
@[simp] theorem State.store_ram_scratch (b : BitVec 3) (o : Offset) (d : Byte) : (s.store (.ram b) o d).scratch = s.scratch := rfl
@[simp] theorem State.store_ram_hiBank (b : BitVec 3) (o : Offset) (d : Byte) : (s.store (.ram b) o d).hiBank = s.hiBank := rfl
@[simp] theorem State.store_ram_romSel (b : BitVec 3) (o : Offset) (d : Byte) : (s.store (.ram b) o d).romSel = s.romSel := rfl
@[simp] theorem State.store_ram_screenSel (b : BitVec 3) (o : Offset) (d : Byte) : (s.store (.ram b) o d).screenSel = s.screenSel := rfl
@[simp] theorem State.store_ram_locked (b : BitVec 3) (o : Offset) (d : Byte) : (s.store (.ram b) o d).locked = s.locked := rfl
@[simp] theorem State.store_ram_pagingValue (b : BitVec 3) (o : Offset) (d : Byte) : (s.store (.ram b) o d).pagingValue = s.pagingValue := rfl
@[simp] theorem State.store_ram_slotCont (b : BitVec 3) (o : Offset) (d : Byte) : (s.store (.ram b) o d).slotCont = s.slotCont := rfl
@[simp] theorem State.store_ram_out (b : BitVec 3) (o : Offset) (d : Byte) : (s.store (.ram b) o d).out = s.out := rfl
@[simp] theorem State.store_ram_returned (b : BitVec 3) (o : Offset) (d : Byte) : (s.store (.ram b) o d).returned = s.returned := rfl
@[simp] theorem State.store_ram_draws (b : BitVec 3) (o : Offset) (d : Byte) : (s.store (.ram b) o d).draws = s.draws := rfl
@[simp] theorem State.store_ram_pending (b : BitVec 3) (o : Offset) (d : Byte) : (s.store (.ram b) o d).pending = s.pending := rfl
@[simp] theorem State.store_scratch_params (o : Offset) (d : Byte) : (s.store .scratch o d).params = s.params := rfl
@[simp] theorem State.store_scratch_ram (o : Offset) (d : Byte) : (s.store .scratch o d).ram = s.ram := rfl
@[simp] theorem State.store_scratch_rom (o : Offset) (d : Byte) : (s.store .scratch o d).rom = s.rom := rfl
@[simp] theorem State.store_scratch_scratch (o : Offset) (d : Byte) : (s.store .scratch o d).scratch = s.scratch.write o.toNat d := rfl
@[simp] theorem State.store_scratch_hiBank (o : Offset) (d : Byte) : (s.store .scratch o d).hiBank = s.hiBank := rfl
@[simp] theorem State.store_scratch_romSel (o : Offset) (d : Byte) : (s.store .scratch o d).romSel = s.romSel := rfl
@[simp] theorem State.store_scratch_screenSel (o : Offset) (d : Byte) : (s.store .scratch o d).screenSel = s.screenSel := rfl
@[simp] theorem State.store_scratch_locked (o : Offset) (d : Byte) : (s.store .scratch o d).locked = s.locked := rfl
@[simp] theorem State.store_scratch_pagingValue (o : Offset) (d : Byte) : (s.store .scratch o d).pagingValue = s.pagingValue := rfl
@[simp] theorem State.store_scratch_slotCont (o : Offset) (d : Byte) : (s.store .scratch o d).slotCont = s.slotCont := rfl
@[simp] theorem State.store_scratch_out (o : Offset) (d : Byte) : (s.store .scratch o d).out = s.out := rfl
@[simp] theorem State.store_scratch_returned (o : Offset) (d : Byte) : (s.store .scratch o d).returned = s.returned := rfl
@[simp] theorem State.store_scratch_draws (o : Offset) (d : Byte) : (s.store .scratch o d).draws = s.draws := rfl
@[simp] theorem State.store_scratch_pending (o : Offset) (d : Byte) : (s.store .scratch o d).pending = s.pending := rfl

/-! ### After construction -/

@[simp] theorem State.construct_params (p : Params) (roms : List BankImage) : (s.construct p roms).params = p := rfl
@[simp] theorem State.construct_ram (p : Params) (roms : List BankImage) : (s.construct p roms).ram = Memory.blank (.powerOn s.draws) := rfl
@[simp] theorem State.construct_rom (p : Params) (roms : List BankImage) : (s.construct p roms).rom = romOf roms := rfl
@[simp] theorem State.construct_scratch (p : Params) (roms : List BankImage) : (s.construct p roms).scratch = Memory.blank (.powerOn (s.draws + 1)) := rfl
@[simp] theorem State.construct_hiBank (p : Params) (roms : List BankImage) : (s.construct p roms).hiBank = 0#3 := rfl
@[simp] theorem State.construct_romSel (p : Params) (roms : List BankImage) : (s.construct p roms).romSel = 0#1 := rfl
@[simp] theorem State.construct_screenSel (p : Params) (roms : List BankImage) : (s.construct p roms).screenSel = 0#1 := rfl
@[simp] theorem State.construct_locked (p : Params) (roms : List BankImage) : (s.construct p roms).locked = false := rfl
@[simp] theorem State.construct_pagingValue (p : Params) (roms : List BankImage) : (s.construct p roms).pagingValue = 0#8 := rfl
@[simp] theorem State.construct_slotCont (p : Params) (roms : List BankImage) : (s.construct p roms).slotCont = slotTags p 0#3 := rfl
@[simp] theorem State.construct_out (p : Params) (roms : List BankImage) : (s.construct p roms).out = [] := rfl
@[simp] theorem State.construct_returned (p : Params) (roms : List BankImage) : (s.construct p roms).returned = .machine := rfl
@[simp] theorem State.construct_draws (p : Params) (roms : List BankImage) : (s.construct p roms).draws = s.draws + 2 := rfl
@[simp] theorem State.construct_pending (p : Params) (roms : List BankImage) : (s.construct p roms).pending = s.pending := rfl

end Sys2Proof.Machine
end

