-- ==== Sys2Proof/Laws/Ops.lean ====
section
/-! SUPPORT. What each shared operation can do, said once: the three cases of `SET_PAGING`, what it and the port arms leave unchanged, where a memory
store goes, and the table lookup. -/

namespace Sys2Proof.Machine

variable (s : State)

/-! ### The paging register -/

theorem setPaging_m48 {s : State} (v : Byte) (h : s.params.model = .m48) : s.setPaging v = s := by
  simp [State.setPaging, h]

theorem setPaging_locked {s : State} (v : Byte) (h : s.locked = true) : s.setPaging v = s := by
  simp only [State.setPaging, h]
  split <;> rfl

theorem setPaging_accepted {s : State} (v : Byte) (h : s.params.model = .m128) (h' : s.locked = false) :
    s.setPaging v = s.acceptPaging v := by
  simp [State.setPaging, h, h']

/-- `SET_PAGING` does nothing, or (M128, unlocked) accepts the byte. -/
theorem setPaging_cases (v : Byte) :
    s.setPaging v = s ∨ (s.params.model = .m128 ∧ s.locked = false ∧ s.setPaging v = s.acceptPaging v) := by
  cases hm : s.params.model with
  | m48 => exact .inl (setPaging_m48 v hm)
  | m128 =>
    cases hl : s.locked with
    | true => exact .inl (setPaging_locked v hl)
    | false => exact .inr ⟨rfl, rfl, setPaging_accepted v hm hl⟩

/-- `SET_PAGING` writes six fields; the rest of the state is as before (R90, R113). -/
theorem setPaging_frame (v : Byte) :
    s.setPaging v = { s with
      hiBank := (s.setPaging v).hiBank, slotCont := { s.slotCont with s3 := (s.setPaging v).slotCont.s3 },
      romSel := (s.setPaging v).romSel, screenSel := (s.setPaging v).screenSel, locked := (s.setPaging v).locked,
      pagingValue := (s.setPaging v).pagingValue } := by
  rcases setPaging_cases s v with h | ⟨-, -, h⟩
  · rw [h]
  · rw [h]; rfl

@[simp] theorem setPaging_params (v : Byte) : (s.setPaging v).params = s.params := by rw [setPaging_frame]
@[simp] theorem setPaging_ram (v : Byte) : (s.setPaging v).ram = s.ram := by rw [setPaging_frame]
@[simp] theorem setPaging_rom (v : Byte) : (s.setPaging v).rom = s.rom := by rw [setPaging_frame]
@[simp] theorem setPaging_scratch (v : Byte) : (s.setPaging v).scratch = s.scratch := by rw [setPaging_frame]
@[simp] theorem setPaging_out (v : Byte) : (s.setPaging v).out = s.out := by rw [setPaging_frame]
@[simp] theorem setPaging_returned (v : Byte) : (s.setPaging v).returned = s.returned := by rw [setPaging_frame]
@[simp] theorem setPaging_draws (v : Byte) : (s.setPaging v).draws = s.draws := by rw [setPaging_frame]
@[simp] theorem setPaging_pending (v : Byte) : (s.setPaging v).pending = s.pending := by rw [setPaging_frame]

/-! ### The arms of a port write -/

/-- The two arms of one `IO_WRITE` at most: the ULA's and one of the other three (R70). -/
theorem writeArms_cases (a : Addr) :
    writeArms a =
      (if ulaTest.holds a then [WriteArm.ula] else []) ++
      (if pagingTest.holds a then [WriteArm.paging]
       else if ayUpperTest.holds a then [WriteArm.aySel]
       else if ayLowerTest.holds a then [WriteArm.ayData] else []) := by
  unfold writeArms
  simp only [List.filter_cons, WriteArm.test, List.filter_nil, ulaTest_bits, pagingTest_bits, ayUpperTest_bits, ayLowerTest_bits]
  cases a.getLsbD 0 <;> cases a.getLsbD 15 <;> cases a.getLsbD 14 <;> cases a.getLsbD 1 <;> rfl

/-- One arm changes the trace and what `SET_PAGING` changes. -/
theorem runWriteArm_frame (d : Byte) (c : Nat) (w : WriteArm) :
    s.runWriteArm d c w = { s with
      hiBank := (s.runWriteArm d c w).hiBank, slotCont := { s.slotCont with s3 := (s.runWriteArm d c w).slotCont.s3 },
      romSel := (s.runWriteArm d c w).romSel, screenSel := (s.runWriteArm d c w).screenSel,
      locked := (s.runWriteArm d c w).locked, pagingValue := (s.runWriteArm d c w).pagingValue,
      out := (s.runWriteArm d c w).out } := by
  cases w with
  | ula => rfl
  | paging =>
    simp only [State.runWriteArm, State.writePaging]
    rcases setPaging_cases (s.emit (.setPaging d)) d with h | ⟨-, -, h⟩ <;> rw [h] <;> rfl
  | aySel => rfl
  | ayData => rfl

/-! ### Memory stores -/

/-- A byte stored in a RAM bank is read back from it. -/
@[simp] theorem ramByte_store_same (b : BitVec 3) (o : Offset) (d : Byte) : (s.store (.ram b) o d).ramByte b o = d :=
  Memory.read_write_same _ _ _

/-- A byte stored in a RAM bank leaves every other byte of RAM. -/
theorem ramByte_store_other (b b' : BitVec 3) (o o' : Offset) (d : Byte) (h : ¬ (b = b' ∧ o = o')) :
    (s.store (.ram b) o d).ramByte b' o' = s.ramByte b' o' :=
  Memory.read_write_other _ _ fun e => h (by have := ramKey_inj e; exact ⟨this.1.symm, this.2.symm⟩)

/-- A byte stored in the scratch bank leaves every other byte of it. -/
theorem scratchByte_store_other (o o' : Offset) (d : Byte) (h : o ≠ o') :
    (s.store .scratch o d).scratchByte o' = s.scratchByte o' :=
  Memory.read_write_other _ _ fun e => h (BitVec.eq_of_toNat_eq e.symm)

/-- What `CONSTRUCT` puts in ROM bank `r` is image `r` (R160). -/
theorem romOf_read (roms : List BankImage) (r : BitVec 1) (o : Offset) (image : BankImage) (h : roms[r.toNat]? = some image) :
    image.bytes[o.toNat]? = some ((romOf roms).read (romKey r o)) := by
  have ho : o.toNat < image.bytes.length := by rw [image.size_eq]; exact o.isLt
  have get : ∀ (l : List BankImage) (k : Nat), l[k]? = some image →
      (l.flatMap (·.bytes))[k * bankSize + o.toNat]? = image.bytes[o.toNat]? := by
    intro l
    induction l with
    | nil => intro k hk; simp at hk
    | cons first rest ih =>
      intro k hk
      have size := first.size_eq
      cases k with
      | zero =>
        simp at hk
        subst hk
        simp [List.getElem?_append_left, ho]
      | succ k =>
        have hk' : rest[k]? = some image := by simpa using hk
        have next : (k + 1) * bankSize + o.toNat - bankSize = k * bankSize + o.toNat := by simp only [bankSize]; omega
        rw [List.flatMap_cons, List.getElem?_append_right (by rw [size]; simp only [bankSize]; omega), size, next]
        exact ih k hk'
  have hget := get roms r.toNat h
  have hlt : romKey r o < (roms.flatMap (·.bytes)).length := by
    have := List.getElem?_eq_some_iff.mp (hget.trans (List.getElem?_eq_getElem ho))
    exact this.1
  have hread := Memory.read_load_inside (Memory.blank (.byte 0#8)) 0 (romKey r o) (roms.flatMap (·.bytes)) hlt
  rw [Nat.zero_add] at hread
  rw [romOf, hread, ← hget]
  exact List.getElem?_eq_getElem hlt

/-! ### Table lookups -/

/-- The lookup index is always within the table (R44, R122). -/
theorem ctLookup_ct (t : ContentionTable) (c : Nat) : t.entries[c % t.frameLen]? = some (ctLookup t .ct c) := by
  have h : c % t.frameLen < t.entries.length := by
    simpa using Nat.mod_lt c (Nat.succ_pos t.rest.length)
  simp [ctLookup, tableEntries, List.getD_eq_getElem?_getD, List.getElem?_eq_getElem h]

@[simp] theorem ctLookup_zt (t : ContentionTable) (c : Nat) : ctLookup t .zt c = 0 := by
  have h : c % t.frameLen < t.frameLen := Nat.mod_lt c (Nat.succ_pos t.rest.length)
  simp [ctLookup, tableEntries, List.getD_eq_getElem?_getD, h]

/-- The lookup is periodic (R123). -/
theorem ctLookup_add_frames (t : ContentionTable) (x : TableSel) (c k : Nat) :
    ctLookup t x (c + k * t.frameLen) = ctLookup t x c := by
  simp [ctLookup, Nat.add_mul_mod_self_right]

theorem candidateTable_frameLen (m : Model) : (candidateTable m).frameLen = candidateLen m := by
  cases m <;> simp [candidateTable, ContentionTable.frameLen, candidateLen]

/-- The candidate table's entries are its formula (R128, R129). -/
theorem ctLookup_candidate (m : Model) (c : Nat) : ctLookup (candidateTable m) .ct c = candidateEntry m (c % candidateLen m) := by
  have hlen : 0 < candidateLen m := by cases m <;> decide
  have hlt : c % candidateLen m < candidateLen m := Nat.mod_lt _ hlen
  rw [ctLookup, candidateTable_frameLen]
  generalize c % candidateLen m = i at hlt
  cases i with
  | zero => rfl
  | succ i =>
    have : i < candidateLen m - 1 := by omega
    simp [tableEntries, candidateTable, List.getD_eq_getElem?_getD, this]

end Sys2Proof.Machine
end

