-- ==== Sys2Proof/Laws/PerInstr.lean ====
section
/-! SUPPORT. Facts about every instruction as syntax, one lemma per constructor. -/

namespace Sys2Proof.Laws

/-- The pages of a snapshot as an encoder writes them tell the pages. -/
theorem pages_injective :
    Function.Injective fun l : List (Int × BankImage) => l.map fun e => (e.1, e.2.bytes) :=
  List.map_injective_iff.mpr fun x y h => by
    obtain ⟨p, b, hb⟩ := x
    obtain ⟨q, c, hc⟩ := y
    simp only [Prod.mk.injEq] at h
    obtain ⟨rfl, rfl⟩ := h
    rfl

/-- The raw operands of `CONSTRUCT` tell the parameters and the images. -/
theorem encodeParams_injective (p q : Params) (l m : List BankImage) (h : encodeParams p l = encodeParams q m) : p = q ∧ l = m := by
  have images : Function.Injective (List.map BankImage.bytes) :=
    List.map_injective_iff.mpr fun x y h => by cases x; cases y; cases h; rfl
  simp only [encodeParams, RawParams.mk.injEq] at h
  obtain ⟨hm, he, hl, -, ht, hb, hs⟩ := h
  refine ⟨?_, images hl⟩
  obtain ⟨pm, pe, pb, ps, ⟨pf, pr⟩⟩ := p
  obtain ⟨qm, qe, qb, qs, ⟨qf, qr⟩⟩ := q
  simp only [ContentionTable.entries, List.cons.injEq] at ht
  obtain ⟨rfl, rfl⟩ := ht
  cases hm
  cases he
  cases Vector.toList_inj.mp hb
  cases BitVec.eq_of_toNat_eq hs
  rfl

namespace RecordTells

/-- The record of an instruction is the record of no other (R60, R61; log 2): the operation and every field of it can be read back. -/
def Statement (i : Instr) : Prop := ∀ j : Instr, encode j = encode i → j = i

theorem memRead (a : Addr) : Statement (.memRead a) := by
  intro j h
  cases j <;> simp_all [encode]

theorem memWrite (a : Addr) (d : Byte) : Statement (.memWrite a d) := by
  intro j h
  cases j <;> simp_all [encode]

theorem memIsContended (a : Addr) : Statement (.memIsContended a) := by
  intro j h
  cases j <;> simp_all [encode]

theorem memContend (a : Addr) (c : Nat) : Statement (.memContend a c) := by
  intro j h
  cases j <;> simp_all [encode]

theorem screenRead (o : Offset) : Statement (.screenRead o) := by
  intro j h
  cases j with
  | screenRead q =>
    simp only [encode, Record.mk.injEq, Option.some.injEq, and_true, true_and] at h
    have hn := congrArg BitVec.toNat h
    simp only [BitVec.toNat_setWidth] at hn
    rw [BitVec.eq_of_toNat_eq (show q.toNat = o.toNat by omega)]
  | _ => simp [encode] at h

theorem setPaging (v : Byte) : Statement (.setPaging v) := by
  intro j h
  cases j <;> simp_all [encode]

theorem setPagingLocked (v : Byte) : Statement (.setPagingLocked v) := by
  intro j h
  cases j <;> simp_all [encode]

theorem setPagingM48 (v : Byte) : Statement (.setPagingM48 v) := by
  intro j h
  cases j <;> simp_all [encode]

theorem loadSnapshot (pages : List (Int × BankImage)) : Statement (.loadSnapshot pages) := by
  intro j h
  cases j <;> simp only [encode, Record.mk.injEq, reduceCtorEq, false_and, HostArg.pages.injEq, true_and] at h
  rw [pages_injective h]

theorem ioRead (a : Addr) : Statement (.ioRead a) := by
  intro j h
  cases j <;> simp_all [encode]

theorem iorKbd (a : Addr) : Statement (.iorKbd a) := by
  intro j h
  cases j <;> simp_all [encode]

theorem iorAyData (a : Addr) : Statement (.iorAyData a) := by
  intro j h
  cases j <;> simp_all [encode]

theorem iorJoy (a : Addr) : Statement (.iorJoy a) := by
  intro j h
  cases j <;> simp_all [encode]

theorem iorFloat (a : Addr) : Statement (.iorFloat a) := by
  intro j h
  cases j <;> simp_all [encode]

theorem ioWrite (a : Addr) (d : Byte) (c : Nat) : Statement (.ioWrite a d c) := by
  intro j h
  cases j <;> simp_all [encode]

theorem iowUla (a : Addr) (d : Byte) (c : Nat) : Statement (.iowUla a d c) := by
  intro j h
  cases j <;> simp_all [encode]

theorem iowPaging (a : Addr) (d : Byte) (c : Nat) : Statement (.iowPaging a d c) := by
  intro j h
  cases j <;> simp_all [encode]

theorem iowAySel (a : Addr) (d : Byte) (c : Nat) : Statement (.iowAySel a d c) := by
  intro j h
  cases j <;> simp_all [encode]

theorem iowAyData (a : Addr) (d : Byte) (c : Nat) : Statement (.iowAyData a d c) := by
  intro j h
  cases j <;> simp_all [encode]

theorem iowNone (a : Addr) (d : Byte) (c : Nat) : Statement (.iowNone a d c) := by
  intro j h
  cases j <;> simp_all [encode]

theorem ioIsUlaPort (a : Addr) : Statement (.ioIsUlaPort a) := by
  intro j h
  cases j <;> simp_all [encode]

theorem ioContend (a : Addr) (c : Nat) : Statement (.ioContend a c) := by
  intro j h
  cases j <;> simp_all [encode]

theorem ctLookup (t : TableSel) (c : Nat) : Statement (.ctLookup t c) := by
  intro j h
  cases j <;> simp_all [encode]

theorem construct (p : Params) (roms : List BankImage) : Statement (.construct p roms) := by
  intro j h
  cases j <;> simp only [encode, Record.mk.injEq, reduceCtorEq, false_and, HostArg.params.injEq, true_and] at h
  obtain ⟨rfl, rfl⟩ := encodeParams_injective _ _ _ _ h
  rfl

theorem reset : Statement .reset := by
  intro j h
  cases j <;> simp_all [encode]

end RecordTells

end Sys2Proof.Laws
end

