-- ==== Sys2Proof/Tests/Slice0.lean ====
section
/-! SUPPORT. The model's own tests. Expected values are those of spec/95_test_vectors.md (its section is named in each group), or worked out by
hand from the rule named. The fixtures are those of 95 section 0, with a table of eight entries in place of a whole frame. The witnesses show, for
each obligation with hypotheses, a state and operands that meet them. -/

namespace Sys2Proof.Tests

open Sys2Proof.Machine

/-! ### Fixtures and helpers -/

/-- Fixture F128 or F48 after `CONSTRUCT`, `CT = 6, 5, 4, 3, 2, 1, 0, 0`, `L = 8`, odd banks contended. -/
def fixture (m : Model) : State where
  params := ⟨m, true, candidateBankContended, 2#3, ⟨6, [5, 4, 3, 2, 1, 0, 0]⟩⟩
  ram := Memory.blank (.byte 0#8)
  rom := ⟨.byte 0#8, match m with
    | .m48 => [(0, 0x48#8), (0x3FFF, 0x4F#8)]
    | .m128 => [(0, 0xA0#8), (0x3FFF, 0xAF#8), (0x4000, 0xA1#8), (0x7FFF, 0xBF#8)]⟩
  scratch := Memory.blank (.byte 0#8)
  hiBank := 0#3
  romSel := 0#1
  screenSel := 0#1
  locked := false
  pagingValue := 0#8
  slotCont := ⟨false, true, false, false⟩
  out := []
  returned := .none
  draws := 2
  pending := []

abbrev f128 : State := fixture .m128
abbrev f48 : State := fixture .m48

/-- F128 with paging byte `v` accepted. -/
def paged (v : Byte) : State := f128.acceptPaging v

/-- F128 with contention disabled. -/
def uncontended : State :=
  { f128 with params := { f128.params with contentionEnabled := false }, slotCont := ⟨false, false, false, false⟩ }

/-- A page of 16384 bytes with the given first byte, the rest 0. -/
def page (first : Byte) : BankImage := ⟨first :: List.replicate 16383 0#8, by simp [bankSize, -List.reduceReplicate]⟩

/-- The state after one instruction. -/
def after (i : Instr) (s : State) : Option State :=
  match exec i s with
  | .next t => some t
  | .fault _ => none
  | .refused _ => none

/-- What one instruction returns. -/
def ret (i : Instr) (s : State) : Option Ret := (after i s).map (·.returned)

/-- The trace after one instruction. -/
def traceOf (i : Instr) (s : State) : Option (List Event) := (after i s).map (·.out)

/-- The paging fields after one instruction. -/
def fieldsOf (i : Instr) (s : State) : Option (BitVec 3 × BitVec 1 × BitVec 1 × Bool × Byte × Bool) :=
  (after i s).map fun t => (t.hiBank, t.screenSel, t.romSel, t.locked, t.pagingValue, t.slotCont.s3)

/-! ### Ill-formed terms are refused -/

theorem test_wf_kbd_needs_an_even_port : (Instr.iorKbd 0xFFFD#16).wellFormed = false := by decide
theorem test_wf_ayData_read_loses_to_kbd : (Instr.iorAyData 0xC000#16).wellFormed = false := by decide
theorem test_wf_joy_loses_to_ayData : (Instr.iorJoy 0xC01D#16).wellFormed = false := by decide
theorem test_wf_float_loses_to_joy : (Instr.iorFloat 0x001F#16).wellFormed = false := by decide
theorem test_wf_ula_needs_an_even_port : (Instr.iowUla 0x7FFD#16 0#8 0).wellFormed = false := by decide
theorem test_wf_paging_needs_bit15_clear : (Instr.iowPaging 0xFFFD#16 0#8 0).wellFormed = false := by decide
theorem test_wf_aySel_needs_bit14 : (Instr.iowAySel 0xBFFD#16 0#8 0).wellFormed = false := by decide
theorem test_wf_ayData_write_needs_bit14_clear : (Instr.iowAyData 0xFFFD#16 0#8 0).wellFormed = false := by decide
theorem test_wf_none_needs_bits_1_and_0 : (Instr.iowNone 0x00FE#16 0#8 0).wellFormed = false := by decide
theorem test_wf_snapshot_indices_distinct : (Instr.loadSnapshot [(5, page 1#8), (7, page 2#8), (5, page 3#8)]).wellFormed = false := by
  decide
theorem test_wf_construct_two_roms_on_m48 : (Instr.construct f48.params [page 1#8, page 2#8]).wellFormed = false := by decide
theorem test_wf_construct_one_rom_on_m128 : (Instr.construct f128.params [page 1#8]).wellFormed = false := by decide

/-! ### Every constructor's decoding, written out from its row in R60 (fields as log 2 places them), with addresses and bytes of 95 sections 2 and 3 -/

theorem test_decode_memRead : decode { op := .memRead, A := some 0x4000#16 } = .ok (.memRead 0x4000#16) := rfl
theorem test_decode_memWrite : decode { op := .memWrite, A := some 0xC000#16, D := some 0x42#8 } = .ok (.memWrite 0xC000#16 0x42#8) := rfl
theorem test_decode_memIsContended : decode { op := .memIsContended, A := some 0xC000#16 } = .ok (.memIsContended 0xC000#16) := rfl
theorem test_decode_memContend :
    decode { op := .memContend, A := some 0xC000#16, C := some 85269 } = .ok (.memContend 0xC000#16 85269) := rfl
theorem test_decode_screenRead : decode { op := .screenRead, A := some 0x3FFF#16 } = .ok (.screenRead 0x3FFF#14) := rfl
theorem test_decode_setPaging : decode { op := .setPaging, D := some 0x31#8 } = .ok (.setPaging 0x31#8) := rfl
theorem test_decode_setPagingLocked : decode { op := .setPagingLocked, D := some 0x07#8 } = .ok (.setPagingLocked 0x07#8) := rfl
theorem test_decode_setPagingM48 : decode { op := .setPagingM48, D := some 0x17#8 } = .ok (.setPagingM48 0x17#8) := rfl
theorem test_decode_loadSnapshot :
    decode { op := .loadSnapshot, host := .pages [(5, 0x99#8 :: List.replicate 16383 0#8), (9, 0x70#8 :: List.replicate 16383 0#8)] } =
      .ok (.loadSnapshot [(5, page 0x99#8), (9, page 0x70#8)]) := by
  simp [decode, Record.withHost, decodeSnapshot, decodePages, distinctIndices, page, -List.reduceReplicate]
theorem test_decode_ioRead : decode { op := .ioRead, A := some 0xFEFE#16 } = .ok (.ioRead 0xFEFE#16) := rfl
theorem test_decode_iorKbd : decode { op := .iorKbd, A := some 0x7FFC#16 } = .ok (.iorKbd 0x7FFC#16) := rfl
theorem test_decode_iorAyData : decode { op := .iorAyData, A := some 0xC001#16 } = .ok (.iorAyData 0xC001#16) := rfl
theorem test_decode_iorJoy : decode { op := .iorJoy, A := some 0xC003#16 } = .ok (.iorJoy 0xC003#16) := rfl
theorem test_decode_iorFloat : decode { op := .iorFloat, A := some 0xFF3F#16 } = .ok (.iorFloat 0xFF3F#16) := rfl
theorem test_decode_ioWrite :
    decode { op := .ioWrite, A := some 0x7FFC#16, D := some 0x1F#8, C := some 100 } = .ok (.ioWrite 0x7FFC#16 0x1F#8 100) := rfl
theorem test_decode_iowUla :
    decode { op := .iowUla, A := some 0xFFFE#16, D := some 0x05#8, C := some 50 } = .ok (.iowUla 0xFFFE#16 0x05#8 50) := rfl
theorem test_decode_iowPaging :
    decode { op := .iowPaging, A := some 0x4001#16, D := some 0x20#8, C := some 60 } = .ok (.iowPaging 0x4001#16 0x20#8 60) := rfl
theorem test_decode_iowAySel :
    decode { op := .iowAySel, A := some 0xFFFC#16, D := some 0x27#8, C := some 200 } = .ok (.iowAySel 0xFFFC#16 0x27#8 200) := rfl
theorem test_decode_iowAyData :
    decode { op := .iowAyData, A := some 0x8001#16, D := some 0x3F#8, C := some 210 } = .ok (.iowAyData 0x8001#16 0x3F#8 210) := rfl
theorem test_decode_iowNone :
    decode { op := .iowNone, A := some 0x8003#16, D := some 0xAA#8, C := some 220 } = .ok (.iowNone 0x8003#16 0xAA#8 220) := rfl
theorem test_decode_ioIsUlaPort : decode { op := .ioIsUlaPort, A := some 0x7FFC#16 } = .ok (.ioIsUlaPort 0x7FFC#16) := rfl
theorem test_decode_ioContend :
    decode { op := .ioContend, A := some 0x7FFD#16, C := some 14362 } = .ok (.ioContend 0x7FFD#16 14362) := rfl
theorem test_decode_ctLookup : decode { op := .ctLookup, C := some 7, host := .table .zt } = .ok (.ctLookup .zt 7) := rfl
/-- The raw operands of a small M48 instance. -/
def rawM48 (images : List (List Byte)) (len : Nat) (tags : List Bool) (bank : Nat) : RawParams :=
  ⟨.m48, true, images, len, [6, 5, 4, 3, 2, 1, 0, 0], tags, bank⟩
theorem test_decode_construct :
    decode { op := .construct, host := .params (rawM48 [0x48#8 :: List.replicate 16383 0#8] 8
      [false, true, false, true, false, true, false, true] 2) } = .ok (.construct f48.params [page 0x48#8]) := by
  simp [decode, Record.withHost, decodeConstruct, decodeParams, decodeTable, decodeImages, rawM48, romCount, page, fixture,
    candidateBankContended, -List.reduceReplicate]
theorem test_decode_reset : decode { op := .reset } = .ok .reset := rfl

/-! ### Records that are no operation -/

theorem test_reject_missing_field : decode { op := .memWrite, A := some 0#16 } = .error (.wrongFields .memWrite) := rfl
theorem test_reject_extra_count : decode { op := .ioRead, A := some 0#16, C := some 1 } = .error (.wrongFields .ioRead) := rfl
theorem test_reject_wide_offset : decode { op := .screenRead, A := some 0x4000#16 } = .error .offsetTooWide := rfl
theorem test_reject_arm : decode { op := .iorJoy, A := some 0xC01D#16 } = .error (.armTestFails .iorJoy) := rfl
theorem test_reject_duplicate_page :
    decode { op := .loadSnapshot, host := .pages [(5, List.replicate 16384 0#8), (5, List.replicate 16384 1#8)] } =
      .error .duplicatePage := by
  simp [decode, Record.withHost, decodeSnapshot, decodePages, distinctIndices, -List.reduceReplicate]
theorem test_reject_short_page : decode { op := .loadSnapshot, host := .pages [(7, [1#8])] } = .error (.pageSize 7) := rfl
theorem test_reject_rom_count : decode { op := .construct, host := .params (rawM48 [] 8 (List.replicate 8 true) 2) } = .error .romImages := by
  rfl
theorem test_reject_table_length : decode { op := .construct, host := .params (rawM48 [] 9 (List.replicate 8 true) 2) } = .error .tableLength := by
  rfl
theorem test_reject_seven_tags : decode { op := .construct, host := .params (rawM48 [] 8 (List.replicate 7 true) 2) } = .error .bankTags := by
  rfl
theorem test_reject_bank_eight : decode { op := .construct, host := .params (rawM48 [] 8 (List.replicate 8 true) 8) } = .error .slot2Bank := by
  rfl

/-! ### Table words and textual lines (R72) -/

theorem test_table_aySel : decodeTableWord 16 0xC000 = some (.iowAySel 0xC000#16 0#8 0) := by decide
theorem test_table_ayData : decodeTableWord 16 0x8000 = some (.iowAyData 0x8000#16 0#8 0) := by decide
theorem test_table_none : decodeTableWord 16 0x0003 = some (.iowNone 0x0003#16 0#8 0) := by decide
theorem test_table_ayDataRead : decodeTableWord 16 0xC001 = some (.iorAyData 0xC001#16) := by decide
theorem test_table_paging_byte : decodeTableWord 8 0x31 = some (.setPaging 0x31#8) := by decide
theorem test_table_too_long : decodeTableWord 24 0 = none := by decide
theorem test_line_out_without_count :
    decode (Line.out 0x7FFD#16 0x10#8 none).record = .ok (.ioWrite 0x7FFD#16 0x10#8 0) := rfl
theorem test_line_screen : decode (Line.sr 0x3FFF#14).record = .ok (.screenRead 0x3FFF#14) := rfl

/-- The next step runs the issued word, also right after power-on. -/
theorem test_step_runs_the_word : step (State.reset.withFetchWord 16 0xC000) = exec (.iowAySel 0xC000#16 0#8 0) State.reset := rfl

/-! ### Memory (95 sections 2.1, 2.2) -/

theorem test_memRead_rom_last_byte : ret (.memRead 0x3FFF#16) f128 = some (.byte 0xAF#8) := by decide
theorem test_memRead_alias : ret (.memRead 0x7FFF#16) ((paged 0x05#8).memStore 0xFFFF#16 0xEE#8) = some (.byte 0xEE#8) := by decide
theorem test_memWrite_bank2 : (after (.memWrite 0x8000#16 0x12#8) f128).map (·.ram.cells) = some [(32768, 0x12#8)] := by decide
theorem test_memWrite_rom_slot_dropped :
    (after (.memWrite 0x0000#16 0x55#8) f128).map (fun t => (t.ram, t.rom, t.memByte 0#16)) = some (f128.ram, f128.rom, 0xA0#8) := by
  decide
theorem test_memIsContended_slot1 : ret (.memIsContended 0x7FFF#16) f48 = some (.bool true) := by decide
theorem test_memIsContended_slot2 : ret (.memIsContended 0x8000#16) f48 = some (.bool false) := by decide
theorem test_memContend_wraps_at_L : ret (.memContend 0x4000#16 8) f48 = some (.nat 6) := by decide
theorem test_memContend_uncontended : ret (.memContend 0x8000#16 9) f48 = some (.nat 0) := by decide
theorem test_screenRead_bank7 : ret (.screenRead 0#14) ((paged 0x0F#8).memStore 0xC000#16 0x70#8) = some (.byte 0x70#8) := by decide
theorem test_screenRead_bank5 : ret (.screenRead 1#14) (f128.memStore 0x4001#16 0x43#8) = some (.byte 0x43#8) := by decide
theorem test_ctLookup_ct : ret (.ctLookup .ct 17) f128 = some (.nat 5) := by decide
theorem test_ctLookup_zt : ret (.ctLookup .zt 17) f128 = some (.nat 0) := by decide

/-! ### Paging (95 sections 2.3, 2.9, 2.10): `hiBank`, `screenSel`, `romSel`, `locked`, `pagingValue`, `slotCont[3]` -/

theorem test_setPaging_3F : fieldsOf (.setPaging 0x3F#8) f128 = some (7#3, 1#1, 1#1, true, 0x3F#8, true) := by decide
theorem test_setPaging_C0 : fieldsOf (.setPaging 0xC0#8) f128 = some (0#3, 0#1, 0#1, false, 0xC0#8, false) := by decide
theorem test_setPagingLocked : fieldsOf (.setPagingLocked 0x07#8) (paged 0x21#8) = some (1#3, 0#1, 0#1, true, 0x21#8, true) := by decide
theorem test_setPagingM48 : fieldsOf (.setPagingM48 0x37#8) f48 = some (0#3, 0#1, 0#1, false, 0x00#8, false) := by decide
theorem test_loadSnapshot_bank5 : ret (.memRead 0x4000#16) { f128 with ram := loadPage f128.ram (5, page 0x99#8) } = some (.byte 0x99#8) := by
  decide
theorem test_loadSnapshot_out_of_range :
    (after (.loadSnapshot [(8, page 1#8), (-1, page 1#8), (9, page 2#8)]) f128).map (·.ram) = some f128.ram := by decide
theorem test_reset_unlocks : fieldsOf .reset (paged 0x37#8) = some (0#3, 0#1, 0#1, false, 0x00#8, false) := by decide
theorem test_reset_keeps_ram : (after .reset (f128.memStore 0x4000#16 0x77#8)).map (·.memByte 0x4000#16) = some 0x77#8 := by decide
theorem test_construct_fields : fieldsOf (.construct f48.params [page 0x48#8]) (paged 0x3F#8) = some (0#3, 0#1, 0#1, false, 0x00#8, false) := by
  decide
theorem test_construct_rom : (after (.construct f48.params [page 0x48#8]) f128).map (·.memByte 0#16) = some 0x48#8 := by decide

/-! ### Ports (95 sections 2.4 to 2.8) -/

theorem test_ioRead_float : ret (.ioRead 0x7FFD#16) f128 = some (.byte 0xFF#8) := by decide
theorem test_ioRead_joy : ret (.ioRead 0xC003#16) f128 = some (.byte 0x00#8) := by decide
theorem test_iorKbd_event : traceOf (.iorKbd 0xFEFE#16) f128 = some [.kbdPoll 0xFEFE#16 (Config.drawByte 2)] := rfl
theorem test_iorAyData_event : traceOf (.iorAyData 0xFFFD#16) f128 = some [.readSoundRegister (Config.drawByte 2)] := rfl
theorem test_iorJoy : ret (.iorJoy 0xFF1F#16) f128 = some (.byte 0x00#8) := by decide
theorem test_iorFloat : ret (.iorFloat 0x00DF#16) f128 = some (.byte 0xFF#8) := by decide
theorem test_ioWrite_two_targets :
    traceOf (.ioWrite 0xBFFC#16 0x13#8 500) f128 =
      some [.setBorder 3#3, .updateBuzzer 1#1 500, .writeSoundRegister 0x13#8 500] := by decide
theorem test_ioWrite_pages_too : fieldsOf (.ioWrite 0x0000#16 0x23#8 9) f128 = some (3#3, 0#1, 0#1, true, 0x23#8, true) := by decide
theorem test_iowUla_ignores_bits : traceOf (.iowUla 0x00FE#16 0xE8#8 4) f128 = some [.setBorder 0#3, .updateBuzzer 0#1 4] := by decide
theorem test_iowPaging_locked_emits : traceOf (.iowPaging 0x7FFD#16 0x07#8 0) (paged 0x31#8) = some [.setPaging 0x07#8] := by decide
theorem test_iowPaging_locked_ignored :
    fieldsOf (.iowPaging 0x7FFD#16 0x07#8 0) (paged 0x31#8) = some (1#3, 0#1, 1#1, true, 0x31#8, true) := by decide
theorem test_iowAySel_low_nibble : traceOf (.iowAySel 0xFFFD#16 0xFE#8 3) f128 = some [.selectSoundRegister 14#4] := by decide
theorem test_iowAyData_whole_byte : traceOf (.iowAyData 0xBFFD#16 0xFE#8 3) f128 = some [.writeSoundRegister 0xFE#8 3] := by decide
theorem test_iowNone : after (.iowNone 0x7FFF#16 0xAA#8 220) f128 = some f128 := by decide
theorem test_ioIsUlaPort_even : ret (.ioIsUlaPort 0x7FFC#16) f128 = some (.bool true) := by decide
theorem test_ioIsUlaPort_odd : ret (.ioIsUlaPort 0x7FFD#16) f128 = some (.bool false) := by decide
theorem test_ioContend_any_port : ret (.ioContend 0x7FFD#16 9) f128 = some (.nat 5) := by decide
theorem test_ioContend_disabled : ret (.ioContend 0x7FFD#16 9) uncontended = some (.nat 0) := by decide
theorem test_candidate_m128_written_entry : candidateEntry .m128 14589 = 6 := by decide

/-! ### Witnesses: a state and operands that meet the hypotheses of each obligation that has some -/

theorem inv_f128 : Inv f128 := ⟨by decide, by decide, by decide, rfl, rfl, rfl, by decide, rfl, by decide⟩
theorem inv_f48 : Inv f48 := ⟨by decide, by decide, by decide, rfl, rfl, rfl, by decide, rfl, by decide⟩
theorem inv_uncontended : Inv uncontended := ⟨by decide, by decide, by decide, rfl, rfl, rfl, by decide, rfl, by decide⟩

theorem witness_DecodeOfEncodeIsTheInstruction :
    [Instr.iorKbd 0x0000#16, .iorAyData 0xC001#16, .iorJoy 0x0001#16, .iorFloat 0xFFFF#16, .iowUla 0xFFFE#16 0#8 0,
      .iowPaging 0x7FFC#16 0#8 0, .iowAySel 0xFFFD#16 0#8 0, .iowAyData 0xBFFD#16 0#8 0, .iowNone 0xFFFF#16 0#8 0,
      .loadSnapshot [(5, page 1#8), (-1, page 1#8)], .construct f48.params [page 1#8],
      .construct f128.params [page 1#8, page 2#8]].all Instr.wellFormed = true := by decide
theorem witness_DecodedRecordIsTheEncoding : decode { op := .iowNone, A := some 3#16, D := some 0#8, C := some 0 } = .ok (.iowNone 3#16 0#8 0) :=
  rfl
theorem witness_PortReadTakesTheFirstMatchingArm :
    0xFFFE#16 &&& 0x0001#16 = 0x0000#16 ∧
    (0xC01D#16 &&& 0x0001#16 ≠ 0x0000#16 ∧ 0xC01D#16 &&& 0xC002#16 = 0xC000#16) ∧
    (0xC01F#16 &&& 0x0001#16 ≠ 0x0000#16 ∧ 0xC01F#16 &&& 0xC002#16 ≠ 0xC000#16 ∧ 0xC01F#16 &&& 0x00E0#16 = 0x0000#16) ∧
    (0xFF3F#16 &&& 0x0001#16 ≠ 0x0000#16 ∧ 0xFF3F#16 &&& 0xC002#16 ≠ 0xC000#16 ∧ 0xFF3F#16 &&& 0x00E0#16 ≠ 0x0000#16) := by decide
theorem witness_StepServesTheDecodedRecord :
    (f128.withFetchWord 16 0xC000).pending = [{ op := .iowAySel, A := some 0xC000#16, D := some 0#8, C := some 0 }] ∧
    decode { op := .iowAySel, A := some 0xC000#16, D := some 0#8, C := some 0 } = .ok (.iowAySel 0xC000#16 0#8 0) := ⟨rfl, rfl⟩
theorem witness_StepWithoutAnOperation :
    f128.pending = [] ∧ (f128.withFetchWord 24 0).pending = [{ op := .memRead }] ∧
    decode { op := .memRead } = .error (.wrongFields .memRead) := ⟨rfl, rfl, rfl⟩
theorem witness_OperationsDoNotSeeTheQueue : exec .reset f48 = .next f48 := rfl
theorem witness_RunAppliesOperationsInIssueOrder :
    ∀ i ∈ [Instr.memWrite 0xC000#16 1#8, .reset, .iorKbd 0xFEFE#16], i.wellFormed = true := by decide
theorem witness_MemWriteStoresInTheMappedBank : Slot.s3 ≠ Slot.s0 := by decide
theorem witness_MemWriteChangesNoOtherByte :
    ¬ (f128.slotWr (slotOf 0x4000#16) = .ram 5#3 ∧ offsetOf 0x4000#16 = 1#14) ∧
    ¬ (f128.slotWr (slotOf 0x3FFF#16) = .scratch ∧ offsetOf 0x3FFF#16 = 0#14) := by decide
theorem witness_RomSlotWritesAreDropped : (0x3FFF#16).toNat < 0x4000 := by decide
theorem witness_WriteThenReadReturnsTheByte : 0x4000 ≤ (0x4000#16).toNat ∧ (0x3FFF#16).toNat < 0x4000 := by decide
theorem witness_WritesAreSeenThroughEveryAlias :
    (paged 0x05#8).slotWr (slotOf 0xFFFF#16) = .ram 5#3 ∧ (paged 0x05#8).slotRd (slotOf 0x7FFF#16) = .ram 5#3 ∧
    offsetOf 0x7FFF#16 = offsetOf 0xFFFF#16 ∧ 5#3 = (if (paged 0x05#8).screenSel = 1#1 then 7#3 else 5#3) := by decide
theorem witness_IsContendedFollowsTheMappedBank : Inv f128 := inv_f128
theorem witness_ScreenReadShowsTheScreenBank : (paged 0x08#8).screenSel = 1#1 ∧ f128.screenSel = 0#1 := by decide
theorem witness_DisabledContentionNeverWaits : Inv uncontended ∧ uncontended.params.contentionEnabled = false :=
  ⟨inv_uncontended, rfl⟩
theorem witness_CandidateTablesFollowTheirFormula :
    { f48 with params := { f48.params with table := candidateTable .m48 } }.params.table = candidateTable .m48 ∧
    { f128 with params := { f128.params with table := candidateTable .m128 } }.params.table = candidateTable .m128 := ⟨rfl, rfl⟩
theorem witness_AcceptedPagingSetsEveryField : f128.params.model = .m128 ∧ f128.locked = false := by decide
theorem witness_LockedPagingIsIgnored : (paged 0x20#8).locked = true := by decide
theorem witness_PagingOnM48IsIgnored :
    Inv f48 ∧ f48.params.model = .m48 ∧
    (0x7FFD#16 &&& 0x8002#16 = 0x0000#16 ∧ 0x7FFD#16 &&& 0x0001#16 ≠ 0x0000#16) ∧
    (0x7FFC#16 &&& 0x8002#16 = 0x0000#16 ∧ 0x7FFC#16 &&& 0x0001#16 = 0x0000#16) := ⟨inv_f48, by decide⟩
theorem witness_PagingLawsOfTheSource :
    f128.params.model = .m128 ∧ f128.locked = false ∧ (0x26#8).getLsbD 5 = true ∧ f128.romSel = 0#1 := by decide
theorem witness_LockIsOneWayUntilReset :
    (f128.params.model = .m128 ∧ f128.locked = false ∧ (0x20#8).getLsbD 5 = true) ∧
    ((paged 0x20#8).locked = true ∧ endsLock (.ioWrite 0x7FFD#16 0x00#8 0) = false) := by decide
theorem witness_OnlyPagingOperationsChangeTheMap :
    mayPage (.memWrite 0xC000#16 0#8) = false ∧ 0xFFFD#16 &&& 0x8002#16 ≠ 0x0000#16 := by decide
theorem witness_ContentionFollowsTheHighBank :
    f128.params.model = .m128 ∧ f128.locked = false ∧ 0xC000 ≤ (0xC000#16).toNat := by decide
theorem witness_SnapshotPagesFillTheirBanks :
    (Instr.loadSnapshot [(5, page 0x99#8), (0, page 0x70#8)]).wellFormed = true ∧
    (((5#3).toNat : Int), page 0x99#8) ∈ [((5 : Int), page 0x99#8), (0, page 0x70#8)] ∧
    (((0#3).toNat : Int), page 0x70#8) ∈ [((5 : Int), page 0x99#8), (0, page 0x70#8)] :=
  ⟨by decide, .head _, .tail _ (.head _)⟩
theorem witness_SnapshotChangesOnlyNamedBanks :
    (∀ e ∈ [((5 : Int), page 0x99#8)], e.1 ≠ ((7#3).toNat : Int)) ∧
    ∀ e ∈ [((-1 : Int), page 1#8), (8, page 1#8)], e.1 < 0 ∨ 7 < e.1 := by
  constructor <;> simp
theorem witness_ConstructBuildsTheDefaultMapping :
    (Instr.construct f128.params [page 1#8, page 2#8]).wellFormed = true ∧ [page 1#8, page 2#8][(1#1).toNat]? = some (page 2#8) :=
  ⟨by decide, rfl⟩
theorem witness_ResetRestoresTheDefaultMapping :
    (paged 0x37#8).params.model = .m128 ∧ f48.params.model = .m48 ∧ Inv f48 ∧
    ((paged 0x37#8).locked = true ∧ ∃ t, exec .reset (paged 0x37#8) = .next t ∧ t.locked = false) :=
  ⟨rfl, rfl, inv_f48, by decide, _, rfl, by decide⟩
theorem witness_JoystickReadReturnsZero :
    (0xC01F#16).getLsbD 0 = true ∧ 0xC01F#16 &&& 0xC002#16 ≠ 0xC000#16 ∧ 0xC01F#16 &&& 0x00E0#16 = 0x0000#16 := by decide
theorem witness_UnmatchedReadReturnsTheFloatingByte :
    0xBFFD#16 &&& 0x0001#16 ≠ 0x0000#16 ∧ 0xBFFD#16 &&& 0xC002#16 ≠ 0xC000#16 ∧ 0xBFFD#16 &&& 0x00E0#16 ≠ 0x0000#16 := by decide
theorem witness_PortWriteRunsEveryMatchingArm :
    0x7FFC#16 &&& 0x8002#16 = 0x0000#16 ∧ 0xFFFD#16 &&& 0xC002#16 = 0xC000#16 ∧ 0xBFFC#16 &&& 0xC002#16 = 0x8000#16 ∧
    0xFFFE#16 &&& 0x0002#16 = 0x0002#16 := by decide
theorem witness_PagingArmForwardsTheWholeByte :
    (0x7FFD#16 &&& 0x8002#16 = 0x0000#16 ∧ 0x7FFD#16 &&& 0x0001#16 ≠ 0x0000#16) ∧
    (f128.params.model = .m128 ∧ f128.locked = false) ∧ f48.params.model = .m48 ∧ (paged 0x20#8).locked = true := by decide
theorem witness_SoundSelectPassesTheLowNibble :
    0xFFFD#16 &&& 0x0001#16 ≠ 0x0000#16 ∧ 0xFFFD#16 &&& 0xC002#16 = 0xC000#16 := by decide
theorem witness_SoundDataWritePassesByteAndCount :
    0xBFFD#16 &&& 0x0001#16 ≠ 0x0000#16 ∧ 0xBFFD#16 &&& 0xC002#16 = 0x8000#16 := by decide
theorem witness_UnmatchedWriteDoesNothing : (0x7FFF#16).getLsbD 1 = true ∧ (0x7FFF#16).getLsbD 0 = true := by decide
theorem witness_PortOperationsChangeOnlyPaging : Instr.ioRead 0xFEFE#16 = .ioRead 0xFEFE#16 := rfl
theorem witness_RomIsNeverWritten :
    (∀ p roms, Instr.memWrite 0#16 0x55#8 ≠ .construct p roms) ∧
    (Instr.construct f48.params [page 1#8]).wellFormed = true ∧ [page 1#8][(0#1).toNat]? = some (page 1#8) :=
  ⟨fun _ _ h => (by cases h), by decide, rfl⟩
theorem witness_RamIsWrittenByTwoOperationsOnly : mayWriteRam (.ioWrite 0x7FFD#16 0x05#8 0) = false := by decide
theorem witness_ScratchIsUnobservable : ∃ t, step (f128.withFetchWord 16 0xC000) = .next t := ⟨_, rfl⟩
theorem witness_TraceOnlyGrows :
    (∀ p roms, Instr.iowUla 0xFFFE#16 5#8 0 ≠ .construct p roms) ∧ Instr.reset = .reset := ⟨fun _ _ h => (by cases h), rfl⟩
theorem witness_StepKeepsTheInvariant : Inv f128 ∧ step f128 = .next f128 := ⟨inv_f128, rfl⟩

end Sys2Proof.Tests
end

section
/-! The step by its three cases (R7, R53, R173), what every shared operation adds to the trace (R14), and the four statements about scope they
settle. -/

namespace Sys2Proof.Machine

/-! ### The step -/

theorem fetch_of_pending_nil {s : State} (h : s.pending = []) : s.fetch = none := by
  simp only [State.fetch, h]

theorem fetch_of_pending_cons {s : State} {r : Record} {rest : List Record} (h : s.pending = r :: rest) :
    s.fetch = some (r, { s with pending := rest }) := by
  simp only [State.fetch, h]

theorem step_idle {s : State} (h : s.pending = []) : step s = .next s := by
  simp only [step, fetch_of_pending_nil h]

theorem step_serves {s : State} {r : Record} {rest : List Record} {i : Instr} (h : s.pending = r :: rest) (hd : decode r = .ok i) :
    step s = exec i { s with pending := rest } := by
  simp only [step, fetch_of_pending_cons h, hd]

theorem step_refuses {s : State} {r : Record} {rest : List Record} {e : Reject} (h : s.pending = r :: rest) (hd : decode r = .error e) :
    step s = .refused (.badRecord e) := by
  simp only [step, fetch_of_pending_cons h, hd]

/-- Settles O7: the record fetched is the oldest pending one, and the state it is served in is the one without it. -/
theorem stepServesTheDecodedRecord : Obligations.StepServesTheDecodedRecord :=
  fun _ _ _ _ => step_serves

/-- Settles O8: an empty queue fetches nothing, and a rejected record is refused with the decoder's reason. -/
theorem stepWithoutAnOperation : Obligations.StepWithoutAnOperation :=
  ⟨fun _ => step_idle, fun _ _ _ _ => step_refuses⟩

/-- Every arm of `exec` answers a next state (R13, R141). -/
theorem exec_completes (i : Instr) (s : State) : ∃ t, exec i s = .next t := by
  cases i <;> exact ⟨_, rfl⟩

/-- Settles O9, by the arms of `exec`: each is a `.next`. -/
theorem everyOperationCompletes : Obligations.EveryOperationCompletes :=
  exec_completes

/-! ### What each operation adds to the trace -/

@[simp] theorem store_out (s : State) (w : WriteBank) (o : Offset) (d : Byte) : (s.store w o d).out = s.out := by
  cases w with
  | ram b => exact s.store_ram_out b o d
  | scratch => exact s.store_scratch_out o d

@[simp] theorem memStore_out (s : State) (a : Addr) (d : Byte) : (s.memStore a d).out = s.out :=
  store_out s _ _ d

@[simp] theorem resetPaging_out (s : State) : s.resetPaging.out = s.out :=
  setPaging_out _ _

/-- The calls of one arm of `IO_READ` at port `a`, with the byte the peripheral answers (R101 to R104). -/
def ReadArm.events (a : Addr) (answer : Byte) : ReadArm → List Event
  | .kbd => [.kbdPoll a answer]
  | .ayData => [.readSoundRegister answer]
  | .joy => []
  | .float => []

theorem runReadArm_out (s : State) (a : Addr) (w : ReadArm) :
    (s.runReadArm a w).out = s.out ++ w.events a (Config.drawByte s.draws) := by
  cases w with
  | kbd => rfl
  | ayData => rfl
  | joy => exact (List.append_nil _).symm
  | float => exact (List.append_nil _).symm

/-- The calls of one arm of `IO_WRITE` (R106 to R109); they do not depend on the state. -/
def WriteArm.events (d : Byte) (c : Nat) : WriteArm → List Event
  | .ula => [.setBorder (ulaBorder d), .updateBuzzer (ulaBuzzer d) c]
  | .paging => [.setPaging d]
  | .aySel => [.selectSoundRegister (ayIndex d)]
  | .ayData => [.writeSoundRegister d c]

theorem runWriteArm_out (s : State) (d : Byte) (c : Nat) (w : WriteArm) : (s.runWriteArm d c w).out = s.out ++ w.events d c := by
  cases w with
  | ula => exact List.append_assoc s.out _ _
  | paging => exact setPaging_out _ d
  | aySel => rfl
  | ayData => rfl

/-- One `IO_WRITE` sends the calls of its arms, arm after arm (R105). -/
theorem runWriteArms_out (s : State) (d : Byte) (c : Nat) (arms : List WriteArm) :
    (s.runWriteArms d c arms).out = s.out ++ arms.flatMap (WriteArm.events d c) := by
  induction arms generalizing s with
  | nil => exact (List.append_nil _).symm
  | cons w rest ih =>
    calc (s.runWriteArms d c (w :: rest)).out
        = (s.runWriteArm d c w).out ++ rest.flatMap (WriteArm.events d c) := ih _
      _ = s.out ++ (w :: rest).flatMap (WriteArm.events d c) := by
        rw [runWriteArm_out, List.append_assoc, List.flatMap_cons]

/-- The operations that can change the trace: the port reads and writes that call out, and `CONSTRUCT`, which starts it anew (R14). -/
def mayChangeTrace : Instr → Bool
  | .ioRead _ | .iorKbd _ | .iorAyData _ => true
  | .ioWrite _ _ _ | .iowUla _ _ _ | .iowPaging _ _ _ | .iowAySel _ _ _ | .iowAyData _ _ _ => true
  | .construct _ _ => true
  | _ => false

theorem exec_keeps_trace {i : Instr} (h : mayChangeTrace i = false) (s : State) : ∃ t, exec i s = .next t ∧ t.out = s.out := by
  cases i with
  | memWrite a d => exact ⟨_, rfl, memStore_out s a d⟩
  | setPaging v | setPagingLocked v | setPagingM48 v => exact ⟨_, rfl, setPaging_out s v⟩
  | reset => exact ⟨_, rfl, resetPaging_out s⟩
  | ioRead | iorKbd | iorAyData | ioWrite | iowUla | iowPaging | iowAySel | iowAyData | construct => cases h
  | _ => exact ⟨_, rfl, rfl⟩

theorem exec_extends_trace {i : Instr} (h : ∀ p roms, i ≠ .construct p roms) (s : State) :
    ∃ t es, exec i s = .next t ∧ t.out = s.out ++ es := by
  cases hi : mayChangeTrace i with
  | false =>
    obtain ⟨t, ht, hout⟩ := exec_keeps_trace hi s
    exact ⟨t, [], ht, by rw [hout, List.append_nil]⟩
  | true =>
    cases i with
    | ioRead a => exact ⟨_, _, rfl, runReadArm_out s a _⟩
    | iorKbd a => exact ⟨_, _, rfl, runReadArm_out s a .kbd⟩
    | iorAyData a => exact ⟨_, _, rfl, runReadArm_out s a .ayData⟩
    | ioWrite a d c => exact ⟨_, _, rfl, runWriteArms_out s d c _⟩
    | iowUla a d c => exact ⟨_, _, rfl, runWriteArm_out s d c .ula⟩
    | iowPaging a d c => exact ⟨_, _, rfl, runWriteArm_out s d c .paging⟩
    | iowAySel a d c => exact ⟨_, _, rfl, runWriteArm_out s d c .aySel⟩
    | iowAyData a d c => exact ⟨_, _, rfl, runWriteArm_out s d c .ayData⟩
    | construct p roms => exact absurd rfl (h p roms)
    | _ => cases hi

/-- Settles O57: an operation that calls out appends the calls of the arms it runs, and none of the listed others calls out. -/
theorem traceOnlyGrows : Obligations.TraceOnlyGrows := by
  refine ⟨fun i s h => exec_extends_trace h s, fun i s h => exec_keeps_trace ?_ s⟩
  rcases h with rfl | ⟨_, rfl | rfl | rfl⟩ | ⟨_, rfl⟩ | ⟨_, _, rfl⟩ | ⟨_, rfl⟩ | ⟨_, _, rfl⟩ | ⟨_, rfl⟩ | ⟨_, rfl⟩ | ⟨_, rfl⟩ |
    ⟨_, _, rfl⟩ | ⟨_, _, rfl⟩ <;> rfl

end Sys2Proof.Machine
end

section
/-! What an operation does to the block itself, said once (R31, R37, R113): the trace, the returned value, the draws and the queue left aside, it
stores in memory, pages, or builds the block anew. The statements about the state of the block follow from it. -/

namespace Sys2Proof.Machine

/-! ### States that agree on the block -/

/-- The same constants, paging fields and tags: the two states show the same banks in the same slots (R31). -/
structure SameMap (s t : State) : Prop where
  params : t.params = s.params
  hiBank : t.hiBank = s.hiBank
  romSel : t.romSel = s.romSel
  screenSel : t.screenSel = s.screenSel
  locked : t.locked = s.locked
  pagingValue : t.pagingValue = s.pagingValue
  slotCont : t.slotCont = s.slotCont

/-- The same block: only the trace, the returned value, the draws and the queue may differ. -/
structure SameBlock (s t : State) : Prop extends SameMap s t where
  ram : t.ram = s.ram
  rom : t.rom = s.rom
  scratch : t.scratch = s.scratch

theorem SameMap.refl (s : State) : SameMap s s := ⟨rfl, rfl, rfl, rfl, rfl, rfl, rfl⟩

theorem SameMap.trans {s t u : State} (h : SameMap s t) (k : SameMap t u) : SameMap s u where
  params := k.params.trans h.params
  hiBank := k.hiBank.trans h.hiBank
  romSel := k.romSel.trans h.romSel
  screenSel := k.screenSel.trans h.screenSel
  locked := k.locked.trans h.locked
  pagingValue := k.pagingValue.trans h.pagingValue
  slotCont := k.slotCont.trans h.slotCont

theorem SameBlock.refl (s : State) : SameBlock s s := ⟨.refl s, rfl, rfl, rfl⟩

theorem SameBlock.trans {s t u : State} (h : SameBlock s t) (k : SameBlock t u) : SameBlock s u where
  toSameMap := h.toSameMap.trans k.toSameMap
  ram := k.ram.trans h.ram
  rom := k.rom.trans h.rom
  scratch := k.scratch.trans h.scratch

theorem sameBlock_answer (s : State) (r : Ret) : SameBlock s (s.answer r) := ⟨⟨rfl, rfl, rfl, rfl, rfl, rfl, rfl⟩, rfl, rfl, rfl⟩

theorem sameBlock_emit (s : State) (e : Event) : SameBlock s (s.emit e) := ⟨⟨rfl, rfl, rfl, rfl, rfl, rfl, rfl⟩, rfl, rfl, rfl⟩

theorem sameBlock_drawn (s : State) : SameBlock s s.drawn := ⟨⟨rfl, rfl, rfl, rfl, rfl, rfl, rfl⟩, rfl, rfl, rfl⟩

theorem sameBlock_pending (s : State) (l : List Record) : SameBlock s { s with pending := l } :=
  ⟨⟨rfl, rfl, rfl, rfl, rfl, rfl, rfl⟩, rfl, rfl, rfl⟩

/-- `SET_PAGING` looks at nothing but the block. -/
theorem SameBlock.setPaging {s t : State} (h : SameBlock s t) (v : Byte) : SameBlock (s.setPaging v) (t.setPaging v) := by
  cases hm : s.params.model with
  | m48 =>
    rw [setPaging_m48 v hm, setPaging_m48 v (h.params ▸ hm)]
    exact h
  | m128 =>
    have hm' : t.params.model = .m128 := h.params ▸ hm
    cases hl : s.locked with
    | true =>
      rw [setPaging_locked v hl, setPaging_locked v (h.locked.trans hl)]
      exact h
    | false =>
      rw [setPaging_accepted v hm hl, setPaging_accepted v hm' (h.locked.trans hl)]
      exact ⟨⟨h.params, rfl, rfl, rfl, rfl, rfl, by simp [h.slotCont, h.params]⟩, h.ram, h.rom, h.scratch⟩

/-! ### What each operation does to the block -/

/-- The block after an operation, with no word on the trace, the returned value, the draws and the queue. -/
def effect : Instr → State → State
  | .memWrite a d, s => s.memStore a d
  | .setPaging v, s | .setPagingLocked v, s | .setPagingM48 v, s | .iowPaging _ v _, s => s.setPaging v
  | .loadSnapshot pages, s => { s with ram := pages.foldl loadPage s.ram }
  | .ioWrite a d _, s => if pagingTest.holds a then s.setPaging d else s
  | .construct p roms, s => s.construct p roms
  | .reset, s => s.resetPaging
  | _, s => s

theorem effect_ioWrite (a : Addr) (d : Byte) (c : Nat) (s : State) :
    effect (.ioWrite a d c) s = if pagingTest.holds a then s.setPaging d else s := rfl

theorem sameBlock_runReadArm (s : State) (a : Addr) (w : ReadArm) : SameBlock s (s.runReadArm a w) := by
  cases w with
  | kbd | ayData => exact ((sameBlock_emit s _).trans (sameBlock_drawn _)).trans (sameBlock_answer _ _)
  | joy | float => exact sameBlock_answer s _

theorem sameBlock_writeUla (s : State) (d : Byte) (c : Nat) : SameBlock s (s.writeUla d c) :=
  (sameBlock_emit s _).trans (sameBlock_emit _ _)

theorem sameBlock_writePaging (s : State) (d : Byte) : SameBlock (s.setPaging d) (s.writePaging d) :=
  (sameBlock_emit s _).setPaging d

theorem runWriteArms_append (s : State) (d : Byte) (c : Nat) (l m : List WriteArm) :
    s.runWriteArms d c (l ++ m) = (s.runWriteArms d c l).runWriteArms d c m :=
  List.foldl_append

/-- Of the arms of one `IO_WRITE` only the paging arm touches the block (R113). -/
theorem sameBlock_runWriteArms (s : State) (a : Addr) (d : Byte) (c : Nat) :
    SameBlock (if pagingTest.holds a then s.setPaging d else s) (s.runWriteArms d c (writeArms a)) := by
  rw [writeArms_cases, runWriteArms_append]
  have first : SameBlock s (s.runWriteArms d c (if ulaTest.holds a then [.ula] else [])) := by
    split
    · exact sameBlock_writeUla s d c
    · exact .refl s
  generalize s.runWriteArms d c (if ulaTest.holds a then [.ula] else []) = t at first ⊢
  by_cases hpaging : pagingTest.holds a = true
  · rw [if_pos hpaging, if_pos hpaging]
    exact (first.setPaging d).trans (sameBlock_writePaging t d)
  · rw [if_neg hpaging, if_neg hpaging]
    refine first.trans ?_
    split
    · exact sameBlock_emit t _
    · split
      · exact sameBlock_emit t _
      · exact .refl t

/-- Every operation completes, and on the block it has its effect. -/
theorem exec_effect (i : Instr) (s : State) : ∃ t, exec i s = .next t ∧ SameBlock (effect i s) t := by
  cases i with
  | ioRead a => exact ⟨_, rfl, sameBlock_runReadArm s a _⟩
  | iorKbd a => exact ⟨_, rfl, sameBlock_runReadArm s a .kbd⟩
  | iorAyData a => exact ⟨_, rfl, sameBlock_runReadArm s a .ayData⟩
  | iorJoy a => exact ⟨_, rfl, sameBlock_runReadArm s a .joy⟩
  | iorFloat a => exact ⟨_, rfl, sameBlock_runReadArm s a .float⟩
  | ioWrite a d c => exact ⟨_, rfl, (sameBlock_runWriteArms s a d c).trans (sameBlock_answer _ _)⟩
  | iowUla a d c => exact ⟨_, rfl, (sameBlock_writeUla s d c).trans (sameBlock_answer _ _)⟩
  | iowPaging a d c => exact ⟨_, rfl, (sameBlock_writePaging s d).trans (sameBlock_answer _ _)⟩
  | iowAySel a d c => exact ⟨_, rfl, (sameBlock_emit s _).trans (sameBlock_answer _ _)⟩
  | iowAyData a d c => exact ⟨_, rfl, (sameBlock_emit s _).trans (sameBlock_answer _ _)⟩
  | construct p roms => exact ⟨_, rfl, .refl _⟩
  | _ => exact ⟨_, rfl, sameBlock_answer _ _⟩

/-! ### What a store, a snapshot and `RESET` keep -/

theorem sameMap_store (s : State) (w : WriteBank) (o : Offset) (d : Byte) : SameMap s (s.store w o d) := by
  cases w with
  | ram b => exact ⟨rfl, rfl, rfl, rfl, rfl, rfl, rfl⟩
  | scratch => exact ⟨rfl, rfl, rfl, rfl, rfl, rfl, rfl⟩

@[simp] theorem store_rom (s : State) (w : WriteBank) (o : Offset) (d : Byte) : (s.store w o d).rom = s.rom := by
  cases w with
  | ram b => exact s.store_ram_rom b o d
  | scratch => exact s.store_scratch_rom o d

theorem sameMap_memStore (s : State) (a : Addr) (d : Byte) : SameMap s (s.memStore a d) := sameMap_store s _ _ d

@[simp] theorem memStore_rom (s : State) (a : Addr) (d : Byte) : (s.memStore a d).rom = s.rom := store_rom s _ _ d

theorem sameMap_withRam (s : State) (ram : Memory) : SameMap s { s with ram := ram } := ⟨rfl, rfl, rfl, rfl, rfl, rfl, rfl⟩

theorem resetPaging_m48 {s : State} (h : s.params.model = .m48) : s.resetPaging = { s with locked := false } :=
  setPaging_m48 _ h

/-- On M128 `RESET` accepts the byte 0 whatever the lock was. -/
theorem resetPaging_m128 {s : State} (h : s.params.model = .m128) : s.resetPaging = s.acceptPaging 0x00#8 :=
  setPaging_accepted (s := { s with locked := false }) _ h rfl

@[simp] theorem resetPaging_params (s : State) : s.resetPaging.params = s.params := setPaging_params _ _
@[simp] theorem resetPaging_ram (s : State) : s.resetPaging.ram = s.ram := setPaging_ram _ _
@[simp] theorem resetPaging_rom (s : State) : s.resetPaging.rom = s.rom := setPaging_rom _ _

/-! ### The invariant -/

/-- The invariant sees the map and whether the storage is canonical, nothing else. -/
theorem Inv.of_sameMap {s t : State} (h : Inv s) (map : SameMap s t) (ramWf : t.ram.wf (8 * bankSize) = true) (rom : t.rom = s.rom)
    (scratchWf : t.scratch.wf bankSize = true) : Inv t where
  ramWf := ramWf
  romWf := by rw [rom, map.params]; exact h.romWf
  scratchWf := scratchWf
  hiBank := by rw [map.hiBank, map.pagingValue]; exact h.hiBank
  screenSel := by rw [map.screenSel, map.pagingValue]; exact h.screenSel
  romSel := by rw [map.romSel, map.pagingValue]; exact h.romSel
  locked := by rw [map.locked, map.pagingValue]; exact h.locked
  slotCont := by rw [map.slotCont, map.params, map.hiBank]; exact h.slotCont
  m48 := by rw [map.params, map.pagingValue]; exact h.m48

theorem Inv.of_sameBlock {s t : State} (h : Inv s) (block : SameBlock s t) : Inv t :=
  h.of_sameMap block.toSameMap (block.ram ▸ h.ramWf) block.rom (block.scratch ▸ h.scratchWf)

theorem Inv.store {s : State} (h : Inv s) (w : WriteBank) (o : Offset) (d : Byte) : Inv (s.store w o d) := by
  refine h.of_sameMap (sameMap_store s w o d) ?_ (store_rom s w o d) ?_
  · cases w with
    | ram b => exact s.ram.write_wf _ _ d h.ramWf (ramKey_lt b o)
    | scratch => exact h.ramWf
  · cases w with
    | ram b => exact h.scratchWf
    | scratch => exact s.scratch.write_wf _ _ d h.scratchWf o.isLt

/-- An accepted byte is split into the fields as R31 reads it, and only slot 3 gets a new bank and its tag. -/
theorem Inv.acceptPaging {s : State} (h : Inv s) (model : s.params.model = .m128) (v : Byte) : Inv (s.acceptPaging v) where
  ramWf := h.ramWf
  romWf := h.romWf
  scratchWf := h.scratchWf
  hiBank := pagBank_eq v
  screenSel := pagScreen_eq v
  romSel := pagRom_eq v
  locked := pagLock_eq v
  slotCont := by rw [State.acceptPaging_slotCont, h.slotCont]; rfl
  m48 := fun m48 => by rw [State.acceptPaging_params, model] at m48; cases m48

theorem Inv.setPaging {s : State} (h : Inv s) (v : Byte) : Inv (s.setPaging v) := by
  rcases setPaging_cases s v with ignored | ⟨model, -, accepted⟩
  · rw [ignored]; exact h
  · rw [accepted]; exact h.acceptPaging model v

/-- On M48 the lock was never set (R92), so clearing it changes nothing. -/
theorem Inv.resetPaging {s : State} (h : Inv s) : Inv s.resetPaging := by
  cases model : s.params.model with
  | m48 =>
    have unlocked : s.locked = false := by rw [h.locked, h.m48 model]; rfl
    rw [resetPaging_m48 model, ← unlocked]
    exact h
  | m128 =>
    rw [resetPaging_m128 model]
    exact h.acceptPaging model _

theorem inv_construct (s : State) (p : Params) (roms : List BankImage) (h : roms.length = romCount p.model) : Inv (s.construct p roms) where
  ramWf := Memory.blank_wf _ _
  romWf := romOf_wf roms _ (by rw [h]; exact Nat.le_refl _)
  scratchWf := Memory.blank_wf _ _
  hiBank := pagBank_eq 0#8
  screenSel := pagScreen_eq 0#8
  romSel := pagRom_eq 0#8
  locked := pagLock_eq 0#8
  slotCont := rfl
  m48 := fun _ => rfl

/-- An instruction an agent can issue keeps the invariant; `CONSTRUCT` needs its image count right for the ROM clause. -/
theorem Inv.effect {s : State} (h : Inv s) {i : Instr} (wf : i.wellFormed = true) : Inv (effect i s) := by
  cases i with
  | memWrite a d => exact h.store _ _ d
  | setPaging v | setPagingLocked v | setPagingM48 v => exact h.setPaging v
  | iowPaging a d c => exact h.setPaging d
  | ioWrite a d c =>
    rw [effect_ioWrite]
    split
    · exact h.setPaging d
    · exact h
  | loadSnapshot pages => exact h.of_sameMap (sameMap_withRam s _) (loadPages_wf pages s.ram h.ramWf) rfl h.scratchWf
  | construct p roms => exact inv_construct s p roms (by simpa [Instr.wellFormed] using wf)
  | reset => exact h.resetPaging
  | _ => exact h

/-! ### The decoder answers what an agent can issue -/

/-- What a decoder answers, if it answers, is well-formed. -/
def YieldsWellFormed (x : Except Reject Instr) : Prop := ∀ i, x = .ok i → i.wellFormed = true

theorem yieldsWellFormed_ok {i : Instr} (h : i.wellFormed = true) : YieldsWellFormed (.ok i) := fun _ e => by cases e; exact h

theorem yieldsWellFormed_error (e : Reject) : YieldsWellFormed (.error e) := fun _ h => by cases h

theorem yieldsWellFormed_withA (r : Record) {k : Addr → Except Reject Instr} (h : ∀ a, YieldsWellFormed (k a)) : YieldsWellFormed (r.withA k) := by
  unfold Record.withA
  split
  · exact h _
  · exact yieldsWellFormed_error _

theorem yieldsWellFormed_withAD (r : Record) {k : Addr → Byte → Except Reject Instr} (h : ∀ a d, YieldsWellFormed (k a d)) :
    YieldsWellFormed (r.withAD k) := by
  unfold Record.withAD
  split
  · exact h _ _
  · exact yieldsWellFormed_error _

theorem yieldsWellFormed_withAC (r : Record) {k : Addr → Nat → Except Reject Instr} (h : ∀ a c, YieldsWellFormed (k a c)) :
    YieldsWellFormed (r.withAC k) := by
  unfold Record.withAC
  split
  · exact h _ _
  · exact yieldsWellFormed_error _

theorem yieldsWellFormed_withADC (r : Record) {k : Addr → Byte → Nat → Except Reject Instr} (h : ∀ a d c, YieldsWellFormed (k a d c)) :
    YieldsWellFormed (r.withADC k) := by
  unfold Record.withADC
  split
  · exact h _ _ _
  · exact yieldsWellFormed_error _

theorem yieldsWellFormed_withD (r : Record) {k : Byte → Except Reject Instr} (h : ∀ v, YieldsWellFormed (k v)) : YieldsWellFormed (r.withD k) := by
  unfold Record.withD
  split
  · exact h _
  · exact yieldsWellFormed_error _

theorem yieldsWellFormed_withTC (r : Record) {k : TableSel → Nat → Except Reject Instr} (h : ∀ x c, YieldsWellFormed (k x c)) :
    YieldsWellFormed (r.withTC k) := by
  unfold Record.withTC
  split
  · exact h _ _
  · exact yieldsWellFormed_error _

theorem yieldsWellFormed_withHost (r : Record) {k : HostArg → Except Reject Instr} (h : ∀ x, YieldsWellFormed (k x)) :
    YieldsWellFormed (r.withHost k) := by
  unfold Record.withHost
  split
  · exact h _
  · exact yieldsWellFormed_error _

theorem yieldsWellFormed_decodeScreen (a : Addr) : YieldsWellFormed (decodeScreen a) := by
  unfold decodeScreen
  split
  · exact yieldsWellFormed_ok rfl
  · exact yieldsWellFormed_error _

theorem yieldsWellFormed_armRow (op : Op) (i : Instr) : YieldsWellFormed (armRow op i) := by
  unfold armRow
  split
  · exact yieldsWellFormed_ok ‹_›
  · exact yieldsWellFormed_error _

theorem yieldsWellFormed_decodeSnapshot (l : List (Int × List Byte)) : YieldsWellFormed (decodeSnapshot l) := by
  unfold decodeSnapshot
  split
  · split
    · exact yieldsWellFormed_ok ‹_›
    · exact yieldsWellFormed_error _
  · exact yieldsWellFormed_error _

theorem yieldsWellFormed_decodeConstruct (raw : RawParams) : YieldsWellFormed (decodeConstruct raw) := by
  unfold decodeConstruct
  split
  · split
    · exact yieldsWellFormed_ok (beq_iff_eq.mpr ‹_›)
    · exact yieldsWellFormed_error _
  · exact yieldsWellFormed_error _
  · exact yieldsWellFormed_error _

theorem yieldsWellFormed_decode (r : Record) : YieldsWellFormed (decode r) := by
  obtain ⟨op, A, D, C, host⟩ := r
  unfold decode
  cases op with
  | memRead | memIsContended | ioRead | ioIsUlaPort => exact yieldsWellFormed_withA _ fun a => yieldsWellFormed_ok rfl
  | memWrite => exact yieldsWellFormed_withAD _ fun a d => yieldsWellFormed_ok rfl
  | memContend | ioContend => exact yieldsWellFormed_withAC _ fun a c => yieldsWellFormed_ok rfl
  | screenRead => exact yieldsWellFormed_withA _ yieldsWellFormed_decodeScreen
  | setPaging | setPagingLocked | setPagingM48 => exact yieldsWellFormed_withD _ fun v => yieldsWellFormed_ok rfl
  | iorKbd | iorAyData | iorJoy | iorFloat => exact yieldsWellFormed_withA _ fun a => yieldsWellFormed_armRow _ _
  | ioWrite => exact yieldsWellFormed_withADC _ fun a d c => yieldsWellFormed_ok rfl
  | iowUla | iowPaging | iowAySel | iowAyData | iowNone => exact yieldsWellFormed_withADC _ fun a d c => yieldsWellFormed_armRow _ _
  | ctLookup => exact yieldsWellFormed_withTC _ fun x c => yieldsWellFormed_ok rfl
  | loadSnapshot =>
    refine yieldsWellFormed_withHost _ fun x => ?_
    cases x with
    | pages l => exact yieldsWellFormed_decodeSnapshot l
    | _ => exact yieldsWellFormed_error _
  | construct =>
    refine yieldsWellFormed_withHost _ fun x => ?_
    cases x with
    | params p => exact yieldsWellFormed_decodeConstruct p
    | _ => exact yieldsWellFormed_error _
  | reset =>
    refine yieldsWellFormed_withHost _ fun x => ?_
    cases x with
    | nothing => exact yieldsWellFormed_ok rfl
    | _ => exact yieldsWellFormed_error _

theorem decode_wellFormed {r : Record} {i : Instr} (h : decode r = .ok i) : i.wellFormed = true := yieldsWellFormed_decode r i h

/-! ### The invariant holds at power-on and every step keeps it -/

/-- Settles O60: the record served decodes to an instruction an agent can issue, and what that does to the block keeps the invariant. -/
theorem stepKeepsTheInvariant : Obligations.StepKeepsTheInvariant := by
  intro s t h hstep
  cases hp : s.pending with
  | nil =>
    rw [step_idle hp] at hstep
    cases hstep
    exact h
  | cons r rest =>
    cases hd : decode r with
    | error e =>
      rw [step_refuses hp hd] at hstep
      cases hstep
    | ok i =>
      rw [step_serves hp hd] at hstep
      obtain ⟨t', ht', block⟩ := exec_effect i { s with pending := rest }
      cases hstep.symm.trans ht'
      exact ((h.of_sameBlock (sameBlock_pending s rest)).effect (decode_wellFormed hd)).of_sameBlock block

/-- Settles O59: the storage is blank and every paging field 0, so each clause computes. -/
theorem powerOnMeetsTheInvariant : Obligations.PowerOnMeetsTheInvariant where
  ramWf := Memory.blank_wf _ _
  romWf := Memory.blank_wf _ _
  scratchWf := Memory.blank_wf _ _
  hiBank := rfl
  screenSel := rfl
  romSel := rfl
  locked := rfl
  slotCont := rfl
  m48 := fun _ => rfl

/-! ### What most operations never touch: the map, ROM, RAM -/

theorem effect_keeps_map {i : Instr} (h : mayPage i = false) (s : State) : SameMap s (effect i s) := by
  cases i with
  | memWrite a d => exact sameMap_memStore s a d
  | loadSnapshot pages => exact sameMap_withRam s _
  | setPaging | setPagingLocked | setPagingM48 | ioWrite | iowPaging | reset | construct => cases h
  | _ => exact .refl s

theorem effect_ioWrite_elsewhere {a : Addr} (h : a &&& 0x8002#16 ≠ 0x0000#16) (d : Byte) (c : Nat) (s : State) :
    effect (.ioWrite a d c) s = s :=
  if_neg ((holds_iff pagingTest a).not.mpr h)

/-- Settles O33: of the operations outside `mayPage` only a memory write and a snapshot touch the block, and neither touches the map. -/
theorem onlyPagingOperationsChangeTheMap : Obligations.OnlyPagingOperationsChangeTheMap := by
  intro i s h
  obtain ⟨t, ht, block⟩ := exec_effect i s
  have map : SameMap s t := by
    refine SameMap.trans ?_ block.toSameMap
    rcases h with h | ⟨a, d, c, rfl, h⟩
    · exact effect_keeps_map h s
    · rw [effect_ioWrite_elsewhere h]
      exact .refl s
  exact ⟨t, ht, map.params, map.hiBank, map.romSel, map.screenSel, map.locked, map.pagingValue, map.slotCont⟩

theorem effect_keeps_rom {i : Instr} (h : ∀ p roms, i ≠ .construct p roms) (s : State) :
    (effect i s).rom = s.rom ∧ (effect i s).params = s.params := by
  cases i with
  | memWrite a d => exact ⟨memStore_rom s a d, (sameMap_memStore s a d).params⟩
  | setPaging v | setPagingLocked v | setPagingM48 v => exact ⟨setPaging_rom s v, setPaging_params s v⟩
  | iowPaging a d c => exact ⟨setPaging_rom s d, setPaging_params s d⟩
  | ioWrite a d c =>
    rw [effect_ioWrite]
    split
    · exact ⟨setPaging_rom s d, setPaging_params s d⟩
    · exact ⟨rfl, rfl⟩
  | construct p roms => exact absurd rfl (h p roms)
  | reset => exact ⟨resetPaging_rom s, resetPaging_params s⟩
  | _ => exact ⟨rfl, rfl⟩

/-- Settles O54: no effect but `CONSTRUCT`'s has ROM or the constants as its target, and `CONSTRUCT` loads image `r` into bank `r`. -/
theorem romIsNeverWritten : Obligations.RomIsNeverWritten := by
  refine ⟨fun i s h => ?_, fun s p roms _ => ⟨_, rfl, romOf_read roms⟩⟩
  obtain ⟨t, ht, block⟩ := exec_effect i s
  obtain ⟨rom, params⟩ := effect_keeps_rom h s
  exact ⟨t, ht, fun r o => congrArg (·.read (romKey r o)) (block.rom.trans rom), block.params.trans params⟩

theorem effect_keeps_ram {i : Instr} (h : mayWriteRam i = false) (s : State) : (effect i s).ram = s.ram := by
  cases i with
  | setPaging v | setPagingLocked v | setPagingM48 v => exact setPaging_ram s v
  | iowPaging a d c => exact setPaging_ram s d
  | ioWrite a d c =>
    rw [effect_ioWrite]
    split
    · exact setPaging_ram s d
    · rfl
  | reset => exact resetPaging_ram s
  | memWrite | loadSnapshot | construct => cases h
  | _ => rfl

/-- Settles O55: the effects left are paging ones and none at all, and paging keeps RAM. -/
theorem ramIsWrittenByTwoOperationsOnly : Obligations.RamIsWrittenByTwoOperationsOnly := by
  intro i s h
  obtain ⟨t, ht, block⟩ := exec_effect i s
  exact ⟨t, ht, fun b o => congrArg (·.read (ramKey b o)) (block.ram.trans (effect_keeps_ram h s))⟩

/-- Settles O32: slots 0 and 1 are fixed, and slot 2 shows a bank fixed at `CONSTRUCT`, which paging keeps. -/
theorem pagingMovesOnlyTheHighWriteBank : Obligations.PagingMovesOnlyTheHighWriteBank :=
  fun s v => ⟨_, rfl, rfl, rfl, rfl, congrArg (fun p : Params => WriteBank.ram p.slot2Bank) (setPaging_params s v)⟩

/-! ### The scratch bank -/

/-- The state with other scratch contents. -/
def State.withScratch (s : State) (m : Memory) : State := { s with scratch := m }

theorem setPaging_withScratch (s : State) (m : Memory) (v : Byte) : (s.withScratch m).setPaging v = (s.setPaging v).withScratch m := by
  cases hm : s.params.model with
  | m48 => rw [setPaging_m48 v hm, setPaging_m48 (s := s.withScratch m) v hm]
  | m128 =>
    cases hl : s.locked with
    | true => rw [setPaging_locked v hl, setPaging_locked (s := s.withScratch m) v hl]
    | false => rw [setPaging_accepted v hm hl, setPaging_accepted (s := s.withScratch m) v hm hl]; rfl

theorem runReadArm_withScratch (s : State) (m : Memory) (a : Addr) (w : ReadArm) :
    (s.withScratch m).runReadArm a w = (s.runReadArm a w).withScratch m := by
  cases w with
  | kbd | ayData | joy | float => rfl

theorem runWriteArm_withScratch (s : State) (m : Memory) (d : Byte) (c : Nat) (w : WriteArm) :
    (s.withScratch m).runWriteArm d c w = (s.runWriteArm d c w).withScratch m := by
  cases w with
  | paging => exact setPaging_withScratch (s.emit _) m d
  | ula | aySel | ayData => rfl

theorem runWriteArms_withScratch (s : State) (m : Memory) (d : Byte) (c : Nat) (arms : List WriteArm) :
    (s.withScratch m).runWriteArms d c arms = (s.runWriteArms d c arms).withScratch m := by
  induction arms generalizing s with
  | nil => rfl
  | cons w rest ih =>
    calc (s.withScratch m).runWriteArms d c (w :: rest)
        = ((s.runWriteArm d c w).withScratch m).runWriteArms d c rest :=
          congrArg (State.runWriteArms · d c rest) (runWriteArm_withScratch s m d c w)
      _ = (s.runWriteArms d c (w :: rest)).withScratch m := ih _

/-- Only a store to slot 0 reaches the scratch bank, and it changes nothing else. -/
theorem store_withScratch (s : State) (m : Memory) (w : WriteBank) (o : Offset) (d : Byte) :
    ∃ m', (s.withScratch m).store w o d = (s.store w o d).withScratch m' := by
  cases w with
  | ram b => exact ⟨m, rfl⟩
  | scratch => exact ⟨m.write o.toNat d, rfl⟩

theorem next_answer_withScratch {t u : State} {m : Memory} {r : Ret} (h : t = u.withScratch m) :
    (.next (t.answer r) : Host.Outcome State Fault Refusal) = .next ((u.answer r).withScratch m) := by
  rw [h]; rfl

theorem exec_withScratch (i : Instr) (s : State) (m : Memory) :
    ∃ t m', exec i s = .next t ∧ exec i (s.withScratch m) = .next (t.withScratch m') := by
  cases i with
  | memWrite a d =>
    obtain ⟨m', h⟩ := store_withScratch s m (s.slotWr (slotOf a)) (offsetOf a) d
    exact ⟨_, m', rfl, next_answer_withScratch h⟩
  | setPaging v | setPagingLocked v | setPagingM48 v =>
    exact ⟨_, m, rfl, next_answer_withScratch (setPaging_withScratch s m v)⟩
  | ioRead a => exact ⟨_, m, rfl, congrArg Host.Outcome.next (runReadArm_withScratch s m a _)⟩
  | ioWrite a d c => exact ⟨_, m, rfl, next_answer_withScratch (runWriteArms_withScratch s m d c _)⟩
  | iowPaging a d c =>
    exact ⟨_, m, rfl, next_answer_withScratch (runWriteArm_withScratch s m d c .paging)⟩
  | construct p roms => exact ⟨_, _, rfl, rfl⟩
  | reset =>
    exact ⟨_, m, rfl, next_answer_withScratch (setPaging_withScratch { s with locked := false } m _)⟩
  | _ => exact ⟨_, m, rfl, rfl⟩

/-- Settles O56: neither the fetch nor any operation reads the scratch bank, and only a store to slot 0 writes it. -/
theorem scratchIsUnobservable : Obligations.ScratchIsUnobservable := by
  intro s t m hstep
  change ∃ m', step (s.withScratch m) = .next (t.withScratch m')
  cases hp : s.pending with
  | nil =>
    rw [step_idle hp] at hstep
    cases hstep
    exact ⟨m, step_idle (s := s.withScratch m) hp⟩
  | cons r rest =>
    cases hd : decode r with
    | error e =>
      rw [step_refuses hp hd] at hstep
      cases hstep
    | ok i =>
      obtain ⟨t', m', ht', hm'⟩ := exec_withScratch i { s with pending := rest } m
      rw [step_serves hp hd, ht'] at hstep
      cases hstep
      exact ⟨m', (step_serves (s := s.withScratch m) hp hd).trans hm'⟩

end Sys2Proof.Machine
end

section
/-! The memory operations by their whole next state (R46, R47, R48, R52, R56), and what a store and a snapshot leave to be read. -/

namespace Sys2Proof.Machine

/-! ### Where a memory access goes -/

/-- The byte a memory read sees, by the range of the address (R46). -/
theorem memByte_eq (s : State) (a : Addr) :
    s.memByte a =
      if a.toNat < 0x4000 then s.romByte s.romSel (a.extractLsb' 0 14)
      else if a.toNat < 0x8000 then s.ramByte 5#3 (a.extractLsb' 0 14)
      else if a.toNat < 0xC000 then s.ramByte s.params.slot2Bank (a.extractLsb' 0 14)
      else s.ramByte s.hiBank (a.extractLsb' 0 14) := by
  rw [← offsetOf_eq]
  exact slotOf_elim (fun x => s.bankByte (s.slotRd x) (offsetOf a)) a

/-- The bank a memory write stores in, by the range of the address (R47). -/
theorem slotWr_slotOf (s : State) (a : Addr) :
    s.slotWr (slotOf a) =
      if a.toNat < 0x4000 then .scratch
      else .ram (if a.toNat < 0x8000 then 5#3 else if a.toNat < 0xC000 then s.params.slot2Bank else s.hiBank) := by
  rw [apply_ite WriteBank.ram, apply_ite WriteBank.ram]
  exact slotOf_elim s.slotWr a

theorem exec_memRead {s : State} {a : Addr} {b : Byte} (h : s.memByte a = b) :
    exec (.memRead a) s = .next { s with returned := .byte b } := by
  rw [← h]; rfl

theorem exec_screenRead {s : State} {o : Offset} {b : Byte} (h : s.ramByte s.screenBank o = b) :
    exec (.screenRead o) s = .next { s with returned := .byte b } := by
  rw [← h]; rfl

theorem exec_memWrite {s : State} {a : Addr} {w : WriteBank} (h : s.slotWr (slotOf a) = w) (d : Byte) :
    exec (.memWrite a d) s = .next ((s.store w (offsetOf a) d).answer .none) := by
  rw [← h]; rfl

/-- Settles O12: the bank read is chosen by the range of the address, and the answer is all that changes. -/
theorem memReadReturnsTheMappedByte : Obligations.MemReadReturnsTheMappedByte :=
  fun s a => exec_memRead (memByte_eq s a)

/-- Settles O13: the bank written is chosen by the range of the address; slot by slot, reads and writes name one RAM bank but in slot 0. -/
theorem memWriteStoresInTheMappedBank : Obligations.MemWriteStoresInTheMappedBank := by
  refine ⟨fun s a d => ?_, fun s x => ?_⟩
  · rw [exec_memWrite (slotWr_slotOf s a), offsetOf_eq]
    split
    · rfl
    · rfl
  · cases x with
    | s0 => exact ⟨fun _ => ⟨rfl, rfl⟩, fun h => absurd rfl h⟩
    | s1 | s2 | s3 => exact ⟨nofun, fun _ => ⟨_, rfl, rfl⟩⟩

/-! ### What is read after a store -/

@[simp] theorem store_slotRd (s : State) (w : WriteBank) (o : Offset) (d : Byte) (x : Slot) : (s.store w o d).slotRd x = s.slotRd x := by
  cases w with
  | ram b => rfl
  | scratch => rfl

@[simp] theorem store_slotWr (s : State) (w : WriteBank) (o : Offset) (d : Byte) (x : Slot) : (s.store w o d).slotWr x = s.slotWr x := by
  cases w with
  | ram b => rfl
  | scratch => rfl

/-- No slot shows the scratch bank (R22, R48). -/
@[simp] theorem memByte_store_scratch (s : State) (o : Offset) (d : Byte) (x : Addr) : (s.store .scratch o d).memByte x = s.memByte x := rfl

/-- A byte stored in a RAM bank is read at every address that shows it (R52). -/
theorem memByte_store_shown {s : State} {b : BitVec 3} {x : Addr} (h : s.slotRd (slotOf x) = .ram b) (d : Byte) :
    (s.store (.ram b) (offsetOf x) d).memByte x = d := by
  rw [State.memByte, store_slotRd, h]
  exact ramByte_store_same s b _ d

/-- Settles O15: slot 0 stores in the scratch bank, which neither a slot nor the screen port shows. -/
theorem romSlotWritesAreDropped : Obligations.RomSlotWritesAreDropped := by
  intro s a d h
  have scratch : s.slotWr (slotOf a) = .scratch := by rw [slotOf_s0 h]; rfl
  exact ⟨_, exec_memWrite scratch d, rfl,
    fun x => ⟨_, exec_memRead (memByte_store_scratch s (offsetOf a) d x), exec_memRead rfl⟩,
    fun o => ⟨s.ramByte s.screenBank o, exec_screenRead rfl, exec_screenRead rfl⟩⟩

/-- Settles O17: the store goes to bank `b`, and every address that shows `b` there reads it back. -/
theorem writesAreSeenThroughEveryAlias : Obligations.WritesAreSeenThroughEveryAlias := by
  intro s a d b h
  refine ⟨_, exec_memWrite h d, fun x hx ho => exec_memRead ?_, fun hb => exec_screenRead ?_⟩
  · exact ho ▸ memByte_store_shown hx d
  · subst hb
    exact ramByte_store_same s s.screenBank _ d

/-! ### Snapshots -/

/-- A bank that no page names reads as before (R93). -/
theorem loadPages_read_other (pages : List (Int × BankImage)) (ram : Memory) (b : BitVec 3) (o : Offset)
    (h : ∀ e ∈ pages, e.1 ≠ (b.toNat : Int)) : (pages.foldl loadPage ram).read (ramKey b o) = ram.read (ramKey b o) := by
  induction pages generalizing ram with
  | nil => rfl
  | cons page rest ih =>
    calc (rest.foldl loadPage (loadPage ram page)).read (ramKey b o)
        = (loadPage ram page).read (ramKey b o) := ih _ fun e he => h e (.tail _ he)
      _ = ram.read (ramKey b o) := loadPage_read_other ram page b o (h page (.head _))

theorem distinctIndices_cons {α : Type} (page : Int × α) (rest : List (Int × α)) :
    distinctIndices (page :: rest) = true ↔ (∀ e ∈ rest, e.1 ≠ page.1) ∧ distinctIndices rest = true := by
  simp [distinctIndices]

/-- With distinct indices no later page covers a bank again: each named bank holds its page (R56). -/
theorem loadPages_read_own (pages : List (Int × BankImage)) (ram : Memory) (b : BitVec 3) (src : BankImage) (o : Offset)
    (distinct : distinctIndices pages = true) (h : ((b.toNat : Int), src) ∈ pages) :
    src.bytes[o.toNat]? = some ((pages.foldl loadPage ram).read (ramKey b o)) := by
  induction pages generalizing ram with
  | nil => cases h
  | cons page rest ih =>
    obtain ⟨fresh, distinct⟩ := (distinctIndices_cons page rest).mp distinct
    rcases List.mem_cons.mp h with rfl | later
    · rw [List.foldl_cons, loadPages_read_other rest _ b o fresh, loadPage_read_own]
      exact List.getElem?_eq_getElem _
    · exact ih _ distinct later

/-- Settles O35: every named bank holds its page, and address `0x4000` is offset 0 of bank 5. -/
theorem snapshotPagesFillTheirBanks : Obligations.SnapshotPagesFillTheirBanks := by
  intro s pages distinct
  exact ⟨_, rfl, fun b src o h => loadPages_read_own pages s.ram b src o distinct h,
    fun src h => ⟨_, loadPages_read_own pages s.ram 5#3 src 0#14 distinct h, exec_memRead rfl⟩⟩

end Sys2Proof.Machine
end

section
/-! The records still to be served (R53, R165): no operation sees them, and a run over encoded records serves the operations in issue order. -/

namespace Sys2Proof.Machine

/-! ### The queue -/

/-- The state with other records to be served. -/
def State.withQueue (s : State) (q : List Record) : State := { s with pending := q }

/-- An update that keeps what `SET_PAGING` tests and commutes with an accepted byte commutes with `SET_PAGING`. -/
theorem setPaging_commutes (f : State → State) {s : State} {v : Byte} (params : (f s).params = s.params) (locked : (f s).locked = s.locked)
    (accept : (f s).acceptPaging v = f (s.acceptPaging v)) : (f s).setPaging v = f (s.setPaging v) := by
  cases hm : s.params.model with
  | m48 => rw [setPaging_m48 v hm, setPaging_m48 v (params ▸ hm)]
  | m128 =>
    cases hl : s.locked with
    | true => rw [setPaging_locked v hl, setPaging_locked v (locked.trans hl)]
    | false => rw [setPaging_accepted v hm hl, setPaging_accepted v (params ▸ hm) (locked.trans hl), accept]

theorem setPaging_withQueue (s : State) (q : List Record) (v : Byte) : (s.withQueue q).setPaging v = (s.setPaging v).withQueue q :=
  setPaging_commutes (·.withQueue q) rfl rfl rfl

theorem runReadArm_withQueue (s : State) (q : List Record) (a : Addr) (w : ReadArm) :
    (s.withQueue q).runReadArm a w = (s.runReadArm a w).withQueue q := by
  cases w with
  | kbd | ayData | joy | float => rfl

theorem runWriteArm_withQueue (s : State) (q : List Record) (d : Byte) (c : Nat) (w : WriteArm) :
    (s.withQueue q).runWriteArm d c w = (s.runWriteArm d c w).withQueue q := by
  cases w with
  | paging => exact setPaging_withQueue (s.emit _) q d
  | ula | aySel | ayData => rfl

theorem runWriteArms_withQueue (s : State) (q : List Record) (d : Byte) (c : Nat) (arms : List WriteArm) :
    (s.withQueue q).runWriteArms d c arms = (s.runWriteArms d c arms).withQueue q :=
  List.foldl_hom (fun t : State => t.withQueue q) fun t w => runWriteArm_withQueue t q d c w

theorem store_withQueue (s : State) (q : List Record) (w : WriteBank) (o : Offset) (d : Byte) :
    (s.withQueue q).store w o d = (s.store w o d).withQueue q := by
  cases w with
  | ram b => rfl
  | scratch => rfl

theorem next_answer_withQueue {t u : State} {q : List Record} {r : Ret} (h : t = u.withQueue q) :
    (.next (t.answer r) : Host.Outcome State Fault Refusal) = .next ((u.answer r).withQueue q) := by
  rw [h]; rfl

/-- Every operation goes to the same state whatever waits behind it. -/
theorem exec_withQueue (i : Instr) (s : State) (q : List Record) :
    ∃ t, exec i s = .next t ∧ exec i (s.withQueue q) = .next (t.withQueue q) := by
  cases i with
  | memWrite a d => exact ⟨_, rfl, next_answer_withQueue (store_withQueue s q _ _ d)⟩
  | setPaging v | setPagingLocked v | setPagingM48 v => exact ⟨_, rfl, next_answer_withQueue (setPaging_withQueue s q v)⟩
  | ioRead a => exact ⟨_, rfl, congrArg Host.Outcome.next (runReadArm_withQueue s q a _)⟩
  | ioWrite a d c => exact ⟨_, rfl, next_answer_withQueue (runWriteArms_withQueue s q d c _)⟩
  | iowPaging a d c => exact ⟨_, rfl, next_answer_withQueue (runWriteArm_withQueue s q d c .paging)⟩
  | reset => exact ⟨_, rfl, next_answer_withQueue (setPaging_withQueue { s with locked := false } q _)⟩
  | _ => exact ⟨_, rfl, rfl⟩

/-- With the queue put back as it was, an operation's state is its own: it left the queue alone. -/
theorem exec_keeps_queue {i : Instr} {s t : State} (h : exec i s = .next t) : t.pending = s.pending := by
  obtain ⟨u, hu, hq⟩ := exec_withQueue i s s.pending
  cases h.symm.trans hu
  have same : t = t.withQueue s.pending := Host.Outcome.next.inj (h.symm.trans hq)
  rw [same]; rfl

/-- Settles O10: the operation commutes with putting another queue in place. -/
theorem operationsDoNotSeeTheQueue : Obligations.OperationsDoNotSeeTheQueue := by
  intro i s t q h
  obtain ⟨u, hu, hq⟩ := exec_withQueue i s q
  cases h.symm.trans hu
  exact ⟨exec_keeps_queue h, hq⟩

/-! ### Decoding an encoded operation -/

theorem armRow_wellFormed (op : Op) {i : Instr} (h : i.wellFormed = true) : armRow op i = .ok i := if_pos h

theorem decodeScreen_setWidth (o : Offset) : decodeScreen (o.setWidth 16) = .ok (.screenRead o) := by
  have fits : (o.setWidth 16).toNat < bankSize := by
    rw [BitVec.toNat_setWidth_of_le (by decide)]
    exact o.isLt
  have back : (o.setWidth 16).setWidth 14 = o := by
    rw [BitVec.setWidth_setWidth_of_le o (by decide), BitVec.setWidth_eq]
  rw [decodeScreen, if_pos fits, back]

theorem decodePages_bytes (pages : List (Int × BankImage)) : decodePages (pages.map fun e => (e.1, e.2.bytes)) = .ok pages := by
  induction pages with
  | nil => rfl
  | cons page rest ih => simp only [List.map_cons, decodePages, dif_pos page.2.size_eq, ih]

theorem decodeImages_bytes (roms : List BankImage) : decodeImages (roms.map (·.bytes)) = .ok roms := by
  induction roms with
  | nil => rfl
  | cons image rest ih => simp only [List.map_cons, decodeImages, dif_pos image.size_eq, ih]

theorem decodeParams_encodeParams (p : Params) (roms : List BankImage) : decodeParams (encodeParams p roms) = .ok p := by
  have table : decodeTable p.table.frameLen p.table.entries = .ok p.table := if_pos rfl
  have bank : p.slot2Bank.toNat < 8 := p.slot2Bank.isLt
  have tags : (⟨p.bankContended.toList.toArray, by simp⟩ : Vector Bool 8) = p.bankContended := by simp [Vector.toList]
  simp [decodeParams, encodeParams, table, bank, tags]

/-- The decoder reads an instruction an agent can issue back from its record (R60, R61). -/
theorem decode_encode {i : Instr} (wf : i.wellFormed = true) : decode (encode i) = .ok i := by
  cases i with
  | screenRead o => exact decodeScreen_setWidth o
  | loadSnapshot pages =>
    change decodeSnapshot _ = _
    rw [decodeSnapshot, decodePages_bytes]
    exact if_pos wf
  | iorKbd | iorAyData | iorJoy | iorFloat | iowUla | iowPaging | iowAySel | iowAyData | iowNone => exact armRow_wellFormed _ wf
  | construct p roms =>
    have images : decodeImages (encodeParams p roms).romImages = .ok roms := decodeImages_bytes roms
    change decodeConstruct (encodeParams p roms) = _
    rw [decodeConstruct, decodeParams_encodeParams, images]
    exact if_pos (by simpa [Instr.wellFormed] using wf)
  | _ => rfl

/-! ### A run over encoded records -/

theorem run_succ_of_step {M : Host.Core} {s t : M.State} (h : M.step s = .next t) (k : Nat) : M.run (k + 1) s = M.run k t := by
  rw [Host.Core.run, h]

theorem serve_cons_of_exec {i : Instr} {s t : State} (h : exec i s = .next t) (rest : List Instr) : serve (i :: rest) s = serve rest t := by
  rw [serve, h]

/-- The first of the encoded records is served, and the others wait as they were. -/
theorem step_encoded {i : Instr} (wf : i.wellFormed = true) (q : List Record) (s : State) :
    step (s.withQueue (encode i :: q)) = exec i (s.withQueue q) :=
  step_serves rfl (decode_encode wf)

/-- A step serves the first operation as from an empty queue and keeps the records of the rest for the steps that follow. -/
theorem run_encoded {is : List Instr} (wf : ∀ i ∈ is, i.wellFormed = true) (s : State) :
    core.run is.length (s.withQueue (is.map encode)) = serve is (s.withQueue []) ∧
      ∃ t, serve is (s.withQueue []) = .next t ∧ t.pending = [] := by
  induction is generalizing s with
  | nil => exact ⟨rfl, _, rfl, rfl⟩
  | cons i rest ih =>
    obtain ⟨wfi, wfrest⟩ := List.forall_mem_cons.mp wf
    obtain ⟨t, ht, hempty⟩ := exec_withQueue i s []
    obtain ⟨u, hu, hrest⟩ := exec_withQueue i s (rest.map encode)
    cases ht.symm.trans hu
    have first : core.step (s.withQueue ((i :: rest).map encode)) = .next (t.withQueue (rest.map encode)) :=
      (step_encoded wfi _ s).trans hrest
    rw [List.length_cons, run_succ_of_step first, serve_cons_of_exec hempty]
    exact ih wfrest t

/-- Settles O11, by induction on the operations: each step serves one of them, and none sees the records of the others. -/
theorem runAppliesOperationsInIssueOrder : Obligations.RunAppliesOperationsInIssueOrder :=
  fun _ s wf => run_encoded wf s

end Sys2Proof.Machine
end

section
/-! Repeated writes (R51): a byte stored again, and a port write whose paging byte is already in force. -/

namespace Sys2Proof.Machine

/-- Storing the same byte again changes nothing. -/
theorem store_store_same (s : State) (w : WriteBank) (o : Offset) (d : Byte) : (s.store w o d).store w o d = s.store w o d := by
  cases w with
  | ram b => exact congrArg (fun m => { s with ram := m }) (Memory.write_write_same _ _ d)
  | scratch => exact congrArg (fun m => { s with scratch := m }) (Memory.write_write_same _ _ d)

theorem store_answer (s : State) (r : Ret) (w : WriteBank) (o : Offset) (d : Byte) :
    (s.answer r).store w o d = (s.store w o d).answer r := by
  cases w with
  | ram b => rfl
  | scratch => rfl

/-- A repeated memory write finds the same bank in its slot and its byte already there. -/
theorem memStore_again (s : State) (a : Addr) (d : Byte) (r : Ret) :
    ((s.memStore a d).answer r).memStore a d = (s.memStore a d).answer r := by
  have bank : ((s.memStore a d).answer r).slotWr (slotOf a) = s.slotWr (slotOf a) := store_slotWr s _ _ d _
  rw [State.memStore, bank, store_answer]
  exact congrArg (·.answer r) (store_store_same s _ _ d)

/-- The state with another trace. -/
def State.withOut (s : State) (l : List Event) : State := { s with out := l }

/-- `SET_PAGING` with byte `d` changes nothing any more. -/
def PagingSettled (d : Byte) (s : State) : Prop := s.setPaging d = s

/-- A byte is in force once set: ignored again where it was ignored, else ignored by the lock it set or accepted into the same fields. -/
theorem pagingSettled_setPaging (s : State) (d : Byte) : PagingSettled d (s.setPaging d) := by
  rcases setPaging_cases s d with ignored | ⟨-, -, accepted⟩
  · exact congrArg (·.setPaging d) ignored
  · rw [PagingSettled, accepted]
    rcases setPaging_cases (s.acceptPaging d) d with ignored | ⟨-, -, again⟩
    · exact ignored
    · exact again

theorem PagingSettled.withOut {d : Byte} {s : State} (h : PagingSettled d s) (l : List Event) : PagingSettled d (s.withOut l) :=
  (setPaging_commutes (·.withOut l) rfl rfl rfl).trans (congrArg (·.withOut l) h)

theorem PagingSettled.answer {d : Byte} {s : State} (h : PagingSettled d s) (r : Ret) : PagingSettled d (s.answer r) :=
  (setPaging_commutes (·.answer r) rfl rfl rfl).trans (congrArg (·.answer r) h)

/-- An arm other than a paging arm with something to page sends its calls and does nothing else. -/
theorem runWriteArm_settled {d : Byte} {s : State} {w : WriteArm} (h : w = .paging → PagingSettled d s) (c : Nat) :
    s.runWriteArm d c w = s.withOut (s.out ++ w.events d c) := by
  cases w with
  | ula => exact congrArg s.withOut (List.append_assoc _ _ _)
  | paging => exact (h rfl).withOut _
  | aySel => rfl
  | ayData => rfl

theorem runWriteArms_settled {d : Byte} {s : State} {arms : List WriteArm} (h : .paging ∈ arms → PagingSettled d s) (c : Nat) :
    s.runWriteArms d c arms = s.withOut (s.out ++ arms.flatMap (WriteArm.events d c)) := by
  induction arms generalizing s with
  | nil => exact congrArg s.withOut (List.append_nil s.out).symm
  | cons w rest ih =>
    have first := runWriteArm_settled (w := w) (fun e => h (e ▸ .head _)) c
    calc s.runWriteArms d c (w :: rest)
        = (s.withOut (s.out ++ w.events d c)).runWriteArms d c rest := congrArg (State.runWriteArms · d c rest) first
      _ = s.withOut (s.out ++ w.events d c ++ rest.flatMap (WriteArm.events d c)) := ih fun e => (h (.tail _ e)).withOut _
      _ = s.withOut (s.out ++ (w :: rest).flatMap (WriteArm.events d c)) := by rw [List.append_assoc, List.flatMap_cons]

/-- A port write that runs the paging arm leaves its byte in force: the arms after it only send calls, or set the byte again. -/
theorem pagingSettled_runWriteArms {arms : List WriteArm} (h : .paging ∈ arms) (s : State) (d : Byte) (c : Nat) :
    PagingSettled d (s.runWriteArms d c arms) := by
  induction arms generalizing s with
  | nil => cases h
  | cons w rest ih =>
    change PagingSettled d ((s.runWriteArm d c w).runWriteArms d c rest)
    by_cases later : .paging ∈ rest
    · exact ih later _
    · rw [runWriteArms_settled fun e => absurd e later]
      cases (List.mem_cons.mp h).resolve_right later
      exact (pagingSettled_setPaging _ d).withOut _

/-- Settles O58: the second memory write stores the byte already there; the second port write finds its paging byte in force and only sends
its calls. -/
theorem repeatedWritesAreIdempotent : Obligations.RepeatedWritesAreIdempotent := by
  refine ⟨fun s a d => ⟨_, rfl, ?_⟩, fun s a d c => ⟨_, _, rfl, runWriteArms_out s d c _, ?_⟩⟩
  · exact congrArg (fun t => Host.Outcome.next (t.answer .none)) (memStore_again s a d .none)
  · have settled : .paging ∈ writeArms a → PagingSettled d ((s.runWriteArms d c (writeArms a)).answer .none) :=
      fun h => (pagingSettled_runWriteArms h s d c).answer .none
    have sent := runWriteArms_settled settled c
    rw [State.answer_out, runWriteArms_out s] at sent
    exact congrArg (fun t => Host.Outcome.next (t.answer .none)) sent

end Sys2Proof.Machine
end

section
/-! The record and its operation (R60, R61, R62): the decoder's two round trips. What a record decodes to is encoded as that record, field by
field; this is the other half of `decode_encode`. -/

namespace Sys2Proof.Machine

/-- Settles O1: `decode_encode`, for the operands of every row. -/
theorem decodeOfEncodeIsTheInstruction : Obligations.DecodeOfEncodeIsTheInstruction :=
  fun _ => decode_encode

/-! ### What a decoder of raw operands answers is written back as those operands -/

theorem setWidth_setWidth_of_fits {a : Addr} (h : a.toNat < bankSize) : (a.setWidth 14).setWidth 16 = a := by
  apply BitVec.eq_of_toNat_eq
  simp only [bankSize] at h
  simp only [BitVec.toNat_setWidth]
  omega

theorem bytes_of_decodePages {l : List (Int × List Byte)} {pages : List (Int × BankImage)} (h : decodePages l = .ok pages) :
    pages.map (fun e => (e.1, e.2.bytes)) = l := by
  induction l generalizing pages with
  | nil => cases h; rfl
  | cons page rest ih =>
    unfold decodePages at h
    split at h
    · split at h
      next decoded hrest => cases h; exact congrArg (page :: ·) (ih hrest)
      next => cases h
    · cases h

theorem bytes_of_decodeImages {l : List (List Byte)} {roms : List BankImage} (h : decodeImages l = .ok roms) :
    roms.map (·.bytes) = l := by
  induction l generalizing roms with
  | nil => cases h; rfl
  | cons bytes rest ih =>
    unfold decodeImages at h
    split at h
    · split at h
      next decoded hrest => cases h; exact congrArg (bytes :: ·) (ih hrest)
      next => cases h
    · cases h

theorem entries_of_decodeTable {n : Nat} {ct : List Nat} {t : ContentionTable} (h : decodeTable n ct = .ok t) :
    t.entries = ct ∧ t.frameLen = n := by
  unfold decodeTable at h
  split at h
  · split at h
    next len => cases h; exact ⟨rfl, len.symm⟩
    next => cases h
  · cases h

theorem encodeParams_of_decodeParams {raw : RawParams} {p : Params} {roms : List BankImage} (h : decodeParams raw = .ok p)
    (images : roms.map (·.bytes) = raw.romImages) : encodeParams p roms = raw := by
  unfold decodeParams at h
  split at h
  · cases h
  next table htable =>
    obtain ⟨entries, len⟩ := entries_of_decodeTable htable
    split at h
    · split at h
      next bank =>
        cases h
        have slot2 : (BitVec.ofNat 3 raw.slot2Bank).toNat = raw.slot2Bank := Nat.mod_eq_of_lt bank
        simp [encodeParams, images, entries, len, slot2]
      next => cases h
    · cases h

/-! ### The decoder answers only what is encoded as its record -/

/-- What a decoder answers, if it answers, has `r` as its record. -/
def YieldsEncodedAs (r : Record) (x : Except Reject Instr) : Prop := ∀ i, x = .ok i → encode i = r

theorem yieldsEncodedAs_ok {r : Record} {i : Instr} (h : encode i = r) : YieldsEncodedAs r (.ok i) := fun _ e => by cases e; exact h

theorem yieldsEncodedAs_error (r : Record) (e : Reject) : YieldsEncodedAs r (.error e) := fun _ h => by cases h

theorem yieldsEncodedAs_armRow {r : Record} {i : Instr} (h : encode i = r) (op : Op) : YieldsEncodedAs r (armRow op i) := by
  unfold armRow
  split
  · exact yieldsEncodedAs_ok h
  · exact yieldsEncodedAs_error _ _

theorem yieldsEncodedAs_decodeScreen (a : Addr) : YieldsEncodedAs { op := .screenRead, A := some a } (decodeScreen a) := by
  unfold decodeScreen
  split
  next fits => exact yieldsEncodedAs_ok (by rw [encode, setWidth_setWidth_of_fits fits])
  next => exact yieldsEncodedAs_error _ _

theorem yieldsEncodedAs_decodeSnapshot (l : List (Int × List Byte)) :
    YieldsEncodedAs { op := .loadSnapshot, host := .pages l } (decodeSnapshot l) := by
  unfold decodeSnapshot
  split
  next pages hpages =>
    split
    · exact yieldsEncodedAs_ok (by rw [encode, bytes_of_decodePages hpages])
    · exact yieldsEncodedAs_error _ _
  next => exact yieldsEncodedAs_error _ _

theorem yieldsEncodedAs_decodeConstruct (raw : RawParams) :
    YieldsEncodedAs { op := .construct, host := .params raw } (decodeConstruct raw) := by
  unfold decodeConstruct
  split
  next p roms hp hroms =>
    split
    · exact yieldsEncodedAs_ok (by rw [encode, encodeParams_of_decodeParams hp (bytes_of_decodeImages hroms)])
    · exact yieldsEncodedAs_error _ _
  · exact yieldsEncodedAs_error _ _
  · exact yieldsEncodedAs_error _ _

section Fields

variable {op : Op} {A : Option Addr} {D : Option Byte} {C : Option Nat} {host : HostArg}

theorem yieldsEncodedAs_withA {k : Addr → Except Reject Instr} (h : ∀ a, YieldsEncodedAs { op, A := some a } (k a)) :
    YieldsEncodedAs ⟨op, A, D, C, host⟩ (Record.withA ⟨op, A, D, C, host⟩ k) := by
  unfold Record.withA
  split
  · subst_vars; exact h _
  · exact yieldsEncodedAs_error _ _

theorem yieldsEncodedAs_withAD {k : Addr → Byte → Except Reject Instr} (h : ∀ a d, YieldsEncodedAs { op, A := some a, D := some d } (k a d)) :
    YieldsEncodedAs ⟨op, A, D, C, host⟩ (Record.withAD ⟨op, A, D, C, host⟩ k) := by
  unfold Record.withAD
  split
  · subst_vars; exact h _ _
  · exact yieldsEncodedAs_error _ _

theorem yieldsEncodedAs_withAC {k : Addr → Nat → Except Reject Instr} (h : ∀ a c, YieldsEncodedAs { op, A := some a, C := some c } (k a c)) :
    YieldsEncodedAs ⟨op, A, D, C, host⟩ (Record.withAC ⟨op, A, D, C, host⟩ k) := by
  unfold Record.withAC
  split
  · subst_vars; exact h _ _
  · exact yieldsEncodedAs_error _ _

theorem yieldsEncodedAs_withADC {k : Addr → Byte → Nat → Except Reject Instr}
    (h : ∀ a d c, YieldsEncodedAs { op, A := some a, D := some d, C := some c } (k a d c)) :
    YieldsEncodedAs ⟨op, A, D, C, host⟩ (Record.withADC ⟨op, A, D, C, host⟩ k) := by
  unfold Record.withADC
  split
  · subst_vars; exact h _ _ _
  · exact yieldsEncodedAs_error _ _

theorem yieldsEncodedAs_withD {k : Byte → Except Reject Instr} (h : ∀ v, YieldsEncodedAs { op, D := some v } (k v)) :
    YieldsEncodedAs ⟨op, A, D, C, host⟩ (Record.withD ⟨op, A, D, C, host⟩ k) := by
  unfold Record.withD
  split
  · subst_vars; exact h _
  · exact yieldsEncodedAs_error _ _

theorem yieldsEncodedAs_withTC {k : TableSel → Nat → Except Reject Instr}
    (h : ∀ x c, YieldsEncodedAs { op, C := some c, host := .table x } (k x c)) :
    YieldsEncodedAs ⟨op, A, D, C, host⟩ (Record.withTC ⟨op, A, D, C, host⟩ k) := by
  unfold Record.withTC
  split
  · subst_vars; exact h _ _
  · exact yieldsEncodedAs_error _ _

theorem yieldsEncodedAs_withHost {k : HostArg → Except Reject Instr} (h : YieldsEncodedAs { op, host } (k host)) :
    YieldsEncodedAs ⟨op, A, D, C, host⟩ (Record.withHost ⟨op, A, D, C, host⟩ k) := by
  unfold Record.withHost
  split
  · subst_vars; exact h
  · exact yieldsEncodedAs_error _ _

end Fields

theorem yieldsEncodedAs_decode (r : Record) : YieldsEncodedAs r (decode r) := by
  obtain ⟨op, A, D, C, host⟩ := r
  unfold decode
  cases op with
  | memRead | memIsContended | ioRead | ioIsUlaPort => exact yieldsEncodedAs_withA fun a => yieldsEncodedAs_ok rfl
  | memWrite => exact yieldsEncodedAs_withAD fun a d => yieldsEncodedAs_ok rfl
  | memContend | ioContend => exact yieldsEncodedAs_withAC fun a c => yieldsEncodedAs_ok rfl
  | screenRead => exact yieldsEncodedAs_withA yieldsEncodedAs_decodeScreen
  | setPaging | setPagingLocked | setPagingM48 => exact yieldsEncodedAs_withD fun v => yieldsEncodedAs_ok rfl
  | iorKbd | iorAyData | iorJoy | iorFloat => exact yieldsEncodedAs_withA fun a => yieldsEncodedAs_armRow rfl _
  | ioWrite => exact yieldsEncodedAs_withADC fun a d c => yieldsEncodedAs_ok rfl
  | iowUla | iowPaging | iowAySel | iowAyData | iowNone => exact yieldsEncodedAs_withADC fun a d c => yieldsEncodedAs_armRow rfl _
  | ctLookup => exact yieldsEncodedAs_withTC fun x c => yieldsEncodedAs_ok rfl
  | loadSnapshot =>
    refine yieldsEncodedAs_withHost ?_
    cases host with
    | pages l => exact yieldsEncodedAs_decodeSnapshot l
    | _ => exact yieldsEncodedAs_error _ _
  | construct =>
    refine yieldsEncodedAs_withHost ?_
    cases host with
    | params p => exact yieldsEncodedAs_decodeConstruct p
    | _ => exact yieldsEncodedAs_error _ _
  | reset =>
    refine yieldsEncodedAs_withHost ?_
    cases host with
    | nothing => exact yieldsEncodedAs_ok rfl
    | _ => exact yieldsEncodedAs_error _ _

/-- The record of what a record decodes to is that record (R61). -/
theorem encode_of_decode {r : Record} {i : Instr} (h : decode r = .ok i) : encode i = r := yieldsEncodedAs_decode r i h

/-- Settles O2: every row's decoder answers a well-formed instruction, made of exactly the fields it has read. -/
theorem decodedRecordIsTheEncoding : Obligations.DecodedRecordIsTheEncoding :=
  fun _ _ h => ⟨decode_wellFormed h, encode_of_decode h⟩

/-- Settles O3: the decoder computes on each record. -/
theorem writtenRecordsDecode : Obligations.WrittenRecordsDecode :=
  ⟨rfl, rfl, rfl, rfl, rfl, rfl, rfl, rfl, rfl, rfl, rfl⟩

end Sys2Proof.Machine
end

section
/-! The port decode (R63, R64, R70): the arms a port address selects, by its masks and by its bits. -/

namespace Sys2Proof.Machine

/-! ### Reads -/

/-- The arm of a read by the masks of R63. -/
theorem readArm_masks (a : Addr) :
    readArm a =
      if a &&& 0x0001#16 = 0x0000#16 then .kbd
      else if a &&& 0xC002#16 = 0xC000#16 then .ayData
      else if a &&& 0x00E0#16 = 0x0000#16 then .joy
      else .float := by
  simp only [readArm, holds_iff]
  rfl

/-- The arm of a read by the address bits of R70. -/
theorem readArm_bits (a : Addr) :
    readArm a =
      if a.getLsbD 0 = false then .kbd
      else if a.getLsbD 15 = true ∧ a.getLsbD 14 = true ∧ a.getLsbD 1 = false then .ayData
      else if a.getLsbD 7 = false ∧ a.getLsbD 6 = false ∧ a.getLsbD 5 = false then .joy
      else .float := by
  simp only [readArm, ulaTest_bits, ayUpperTest_bits, joyTest_bits, Bool.and_eq_true, Bool.not_eq_true', and_assoc]

/-- `IO_READ` runs the arm its address selects (R100). -/
theorem exec_ioRead {a : Addr} {w : ReadArm} (h : readArm a = w) (s : State) : exec (.ioRead a) s = .next (s.runReadArm a w) :=
  congrArg (fun w => Host.Outcome.next (s.runReadArm a w)) h

/-- Settles O4, by `readArm_masks`: each clause's premises decide the tests up to its arm's. -/
theorem portReadTakesTheFirstMatchingArm : Obligations.PortReadTakesTheFirstMatchingArm := by
  intro a s
  refine ⟨fun ula => exec_ioRead (w := .kbd) ?_ s, fun ula ay => exec_ioRead (w := .ayData) ?_ s,
    fun ula ay joy => exec_ioRead (w := .joy) ?_ s, fun ula ay joy => exec_ioRead (w := .float) ?_ s⟩
  · rw [readArm_masks, if_pos ula]
  · rw [readArm_masks, if_neg ula, if_pos ay]
  · rw [readArm_masks, if_neg ula, if_neg ay, if_pos joy]
  · rw [readArm_masks, if_neg ula, if_neg ay, if_neg joy]

/-- Settles O5, by the first of the three tests of `readArm_bits` that the address meets. -/
theorem portReadTruthTable : Obligations.PortReadTruthTable := by
  intro a
  rw [readArm_bits]
  by_cases ula : a.getLsbD 0 = false
  · simp [ula, -BitVec.getLsbD_eq_getElem]
  by_cases ay : a.getLsbD 15 = true ∧ a.getLsbD 14 = true ∧ a.getLsbD 1 = false
  · simp [ula, ay, -BitVec.getLsbD_eq_getElem]
  by_cases joy : a.getLsbD 7 = false ∧ a.getLsbD 6 = false ∧ a.getLsbD 5 = false <;>
    simp [ula, ay, joy, -BitVec.getLsbD_eq_getElem]

/-! ### Writes -/

/-- Settles O6, by `writeArms_cases`: the ULA's test is on bit 0, and of the other three tests, all on bits 1, 15 and 14, one holds exactly
when bit 1 is clear. -/
theorem portWriteTruthTable : Obligations.PortWriteTruthTable := by
  intro a
  rw [writeArms_cases, ulaTest_bits, pagingTest_bits, ayUpperTest_bits, ayLowerTest_bits]
  congr 1
  · cases a.getLsbD 0 <;> rfl
  · cases a.getLsbD 1 with
    | true => simp
    | false =>
      cases a.getLsbD 15 with
      | false => rfl
      | true => cases a.getLsbD 14 <;> rfl

end Sys2Proof.Machine
end

section
/-! The memory operations, continued: the frame of a write and the write-then-read law (R81, R85), the contention queries of a memory
access (R82, R83) and the screen port (R84). -/

namespace Sys2Proof.Machine

/-! ### The frame of a write -/

/-- Every byte of RAM but the one stored reads as before, whatever kind of bank the store goes to (R81). -/
theorem ramByte_store_elsewhere (s : State) {w : WriteBank} {o o' : Offset} {b : BitVec 3} (d : Byte) (h : ¬ (w = .ram b ∧ o = o')) :
    (s.store w o d).ramByte b o' = s.ramByte b o' := by
  cases w with
  | ram b' => exact ramByte_store_other s b' b o o' d fun ⟨bank, offset⟩ => h ⟨congrArg WriteBank.ram bank, offset⟩
  | scratch => rfl

/-- Every byte of the scratch bank but the one stored reads as before, whatever kind of bank the store goes to (R81). -/
theorem scratchByte_store_elsewhere (s : State) {w : WriteBank} {o o' : Offset} (d : Byte) (h : ¬ (w = .scratch ∧ o = o')) :
    (s.store w o d).scratchByte o' = s.scratchByte o' := by
  cases w with
  | ram b => rfl
  | scratch => exact scratchByte_store_other s o o' d fun same => h ⟨rfl, same⟩

/-- No store reaches a ROM bank (R21). -/
@[simp] theorem store_romByte (s : State) (w : WriteBank) (o o' : Offset) (d : Byte) (r : BitVec 1) :
    (s.store w o d).romByte r o' = s.romByte r o' := congrArg (·.read (romKey r o')) (store_rom s w o d)

/-- A store changes the storage of RAM and of the scratch bank only (R81). -/
theorem store_frame (s : State) (w : WriteBank) (o : Offset) (d : Byte) :
    s.store w o d = { s with ram := (s.store w o d).ram, scratch := (s.store w o d).scratch } := by
  cases w with
  | ram b => rfl
  | scratch => rfl

/-- Settles O14: the write is a store to the bank `slotWr` gives for the slot, at the offset of the address, and answers nothing. -/
theorem memWriteChangesNoOtherByte : Obligations.MemWriteChangesNoOtherByte := fun s _ d =>
  ⟨_, exec_memWrite rfl d, fun _ _ elsewhere => ramByte_store_elsewhere s d elsewhere, fun r o => store_romByte s _ _ o d r,
    fun _ elsewhere => scratchByte_store_elsewhere s d elsewhere, congrArg (·.answer .none) (store_frame s _ _ d)⟩

/-! ### Write, then read -/

/-- The bank a memory read sees, by the range of the address (R46). -/
theorem slotRd_slotOf (s : State) (a : Addr) :
    s.slotRd (slotOf a) =
      if a.toNat < 0x4000 then .rom s.romSel
      else .ram (if a.toNat < 0x8000 then 5#3 else if a.toNat < 0xC000 then s.params.slot2Bank else s.hiBank) := by
  rw [apply_ite ReadBank.ram, apply_ite ReadBank.ram]
  exact slotOf_elim s.slotRd a

/-- Settles O16: slot 0 drops the write (`romSlotWritesAreDropped`), and any other slot writes the bank it reads, so the address is one of
its own aliases (`writesAreSeenThroughEveryAlias`). -/
theorem writeThenReadReturnsTheByte : Obligations.WriteThenReadReturnsTheByte := by
  intro s a d
  by_cases rom : a.toNat < 0x4000
  · obtain ⟨t, write, -, reads, -⟩ := romSlotWritesAreDropped s a d rom
    obtain ⟨b, after, before⟩ := reads a
    exact ⟨t, write, fun ram => absurd rom (Nat.not_lt.mpr ram), fun _ => ⟨b, before, after⟩⟩
  · obtain ⟨t, write, reads, -⟩ := writesAreSeenThroughEveryAlias s a d _ ((slotWr_slotOf s a).trans (if_neg rom))
    exact ⟨t, write, fun _ => reads a ((slotRd_slotOf s a).trans (if_neg rom)) rfl, fun h => absurd h rom⟩

/-! ### The contention of a memory access -/

theorem exec_memIsContended {s : State} {a : Addr} {t : Bool} (h : s.slotCont.get (slotOf a) = t) :
    exec (.memIsContended a) s = .next { s with returned := .bool t } := by
  rw [← h]; rfl

theorem exec_memContend {s : State} {a : Addr} {c w : Nat} (h : s.memWait a c = w) :
    exec (.memContend a c) s = .next { s with returned := .nat w } := by
  rw [← h]; rfl

/-- The tag of the slot of an address, by the range of the address (R82). -/
theorem slotCont_slotOf (s : State) (a : Addr) :
    s.slotCont.get (slotOf a) =
      if a.toNat < 0x4000 then s.slotCont.s0 else if a.toNat < 0x8000 then s.slotCont.s1
      else if a.toNat < 0xC000 then s.slotCont.s2 else s.slotCont.s3 :=
  slotOf_elim s.slotCont.get a

/-- No ROM bank is contended (D6, log 10). -/
@[simp] theorem tag_rom (p : Params) (r : BitVec 1) : tag p (.rom r) = false := Bool.and_false _

/-- In a sound state the tag of a slot is the tag of the bank it shows (R31); in slot 0 both are false. -/
theorem Inv.slotCont_get {s : State} (h : Inv s) (x : Slot) : s.slotCont.get x = tag s.params (s.slotRd x) := by
  rw [h.slotCont]
  cases x with
  | s0 | s1 | s2 | s3 => rfl

/-- Settles O19: the tag by the range of the address. -/
theorem isContendedReturnsTheSlotTag : Obligations.IsContendedReturnsTheSlotTag :=
  fun s a => exec_memIsContended (slotCont_slotOf s a)

/-- Settles O18: the slot's tag is its bank's (`Inv.slotCont_get`), and the bank is chosen by the range of the address. -/
theorem isContendedFollowsTheMappedBank : Obligations.IsContendedFollowsTheMappedBank := by
  intro s a sound
  apply exec_memIsContended
  rw [sound.slotCont_get, slotRd_slotOf, apply_ite (tag s.params), tag_rom]
  rfl

/-- The wait states of a memory access: the real table's where the slot's tag is set, else none (R83). -/
theorem memWait_eq (s : State) (a : Addr) (c : Nat) :
    s.memWait a c = if s.slotCont.get (slotOf a) = true then ctLookup s.params.table .ct c else 0 := by
  rw [State.memWait, apply_ite (ctLookup s.params.table · c), ctLookup_zt]

/-- The wait states of a memory access repeat every frame (R123). -/
theorem memWait_add_frames (s : State) (a : Addr) (c k : Nat) : s.memWait a (c + k * s.params.table.frameLen) = s.memWait a c :=
  ctLookup_add_frames s.params.table _ c k

/-- Settles O20: the entry is the lookup's (`ctLookup_ct`), the tag goes by the range of the address, and a later frame waits the same. -/
theorem memContendLooksUpTheSlotTable : Obligations.MemContendLooksUpTheSlotTable := by
  intro s a c
  refine ⟨⟨ctLookup s.params.table .ct c, ctLookup_ct s.params.table c, exec_memContend ?_⟩, exec_memContend (w := s.memWait a c) ?_⟩
  · rw [memWait_eq, slotCont_slotOf]
  · simpa using memWait_add_frames s a c 1

/-! ### The screen port -/

theorem screenBank_seven {s : State} (h : s.screenSel = 1#1) : s.screenBank = 7#3 := if_pos h

theorem screenBank_five {s : State} (h : s.screenSel = 0#1) : s.screenBank = 5#3 := if_neg (by rw [h]; decide)

/-- Settles O21: the screen port reads the bank that `screenSel` picks. -/
theorem screenReadShowsTheScreenBank : Obligations.ScreenReadShowsTheScreenBank := fun s o =>
  ⟨fun h => exec_screenRead (by rw [screenBank_seven h]), fun h => exec_screenRead (by rw [screenBank_five h])⟩

end Sys2Proof.Machine
end

section
/-! The paging register and snapshots (R90 to R94): the three rows of `SET_PAGING` by their whole next state, the port writes that pass the
paging test, and the frame of a snapshot. -/

namespace Sys2Proof.Machine

/-! ### The rows of `SET_PAGING` -/

/-- Each of the three rows runs the whole of `SET_PAGING` (log 5). -/
theorem exec_pagingRow {i : Instr} {v : Byte} (row : i = .setPaging v ∨ i = .setPagingLocked v ∨ i = .setPagingM48 v) (s : State) :
    exec i s = .next ((s.setPaging v).answer .none) := by
  rcases row with rfl | rfl | rfl
  · rfl
  · rfl
  · rfl

/-- A row whose byte is ignored only completes. -/
theorem exec_pagingRow_ignored {i : Instr} {v : Byte} (row : i = .setPaging v ∨ i = .setPagingLocked v ∨ i = .setPagingM48 v) {s : State}
    (ignored : s.setPaging v = s) : exec i s = .next { s with returned := .none } := by
  rw [exec_pagingRow row, ignored]
  rfl

/-- Settles O27: every row accepts the byte, and the fields accepted are the bit slices of PAGF (R65). -/
theorem acceptedPagingSetsEveryField : Obligations.AcceptedPagingSetsEveryField := by
  intro s v i row model unlocked
  rw [exec_pagingRow row, setPaging_accepted v model unlocked, State.acceptPaging, pagBank_eq, pagScreen_eq, pagRom_eq, pagLock_eq]
  rfl

/-- Settles O28: the lock makes every row ignore its byte. -/
theorem lockedPagingIsIgnored : Obligations.LockedPagingIsIgnored :=
  fun _ v _ row locked => exec_pagingRow_ignored row (setPaging_locked v locked)

/-! ### A port write that passes the paging test -/

/-- `IO_WRITE` runs the arms its address selects (R105). -/
theorem exec_ioWrite {a : Addr} {arms : List WriteArm} (h : writeArms a = arms) (d : Byte) (c : Nat) (s : State) :
    exec (.ioWrite a d c) s = .next ((s.runWriteArms d c arms).answer .none) := by
  rw [← h]; rfl

/-- At an odd address that passes the paging test only the paging arm runs (R64). -/
theorem writeArms_paging_odd {a : Addr} (paging : a &&& 0x8002#16 = 0x0000#16) (odd : a &&& 0x0001#16 ≠ 0x0000#16) :
    writeArms a = [.paging] := by
  rw [writeArms_cases, if_neg ((holds_iff ulaTest a).not.mpr odd), if_pos ((holds_iff pagingTest a).mpr paging)]
  rfl

/-- At an even address that passes the paging test the ULA arm runs first (R64, D12). -/
theorem writeArms_paging_even {a : Addr} (paging : a &&& 0x8002#16 = 0x0000#16) (even : a &&& 0x0001#16 = 0x0000#16) :
    writeArms a = [.ula, .paging] := by
  rw [writeArms_cases, if_pos ((holds_iff ulaTest a).mpr even), if_pos ((holds_iff pagingTest a).mpr paging)]
  rfl

/-- Where `SET_PAGING` has nothing to change, a port write only sends the calls of its arms. -/
theorem exec_ioWrite_settled {a : Addr} {arms : List WriteArm} (h : writeArms a = arms) {d : Byte} {s : State} (settled : PagingSettled d s)
    (c : Nat) : exec (.ioWrite a d c) s = .next { s with out := s.out ++ arms.flatMap (WriteArm.events d c), returned := .none } := by
  rw [exec_ioWrite h, runWriteArms_settled fun _ => settled]
  rfl

/-- A sound M48 state never pages: the paging byte stays 0, and with it the fields it is split into (R92). -/
theorem Inv.m48_fields {s : State} (h : Inv s) (model : s.params.model = .m48) :
    s.hiBank = 0#3 ∧ s.romSel = 0#1 ∧ s.screenSel = 0#1 ∧ s.locked = false ∧ s.pagingValue = 0#8 := by
  have value : s.pagingValue = 0#8 := h.m48 model
  rw [h.hiBank, h.romSel, h.screenSel, h.locked, value]
  exact ⟨rfl, rfl, rfl, rfl, rfl⟩

/-- Settles O29: the model makes `SET_PAGING` ignore its byte in every row and in the paging arm, which leaves the calls of the arms. -/
theorem pagingOnM48IsIgnored : Obligations.PagingOnM48IsIgnored := by
  refine ⟨fun s v i row model => exec_pagingRow_ignored row (setPaging_m48 v model), fun s sound model => sound.m48_fields model,
    fun s a d c model paging => ?_⟩
  have settled : PagingSettled d s := setPaging_m48 d model
  refine ⟨fun odd => exec_ioWrite_settled (writeArms_paging_odd paging odd) settled c, fun even => ?_⟩
  rw [exec_ioWrite_settled (writeArms_paging_even paging even) settled, ← ulaBorder_eq, ← ulaBuzzer_eq]
  rfl

/-- The paging arm of a port write in a state that accepts: its event, then the byte's fields (R107). -/
theorem writePaging_accepted {s : State} (d : Byte) (model : s.params.model = .m128) (unlocked : s.locked = false) :
    s.writePaging d = (s.emit (.setPaging d)).acceptPaging d :=
  setPaging_accepted d model unlocked

/-- Address 0 reads the first byte of the ROM selected (R46). -/
theorem exec_memRead_zero {s : State} {r : BitVec 1} (h : s.romSel = r) :
    exec (.memRead 0x0000#16) s = .next { s with returned := .byte (s.romByte r 0#14) } := by
  rw [← h]; exact exec_memRead rfl

/-- Settles O30: the byte's bank goes to slot 3 for reads and writes, its bit 5 to the lock (`lockedPagingIsIgnored`), and bit 4 of `0x10` to
`romSel`, which address 0 follows. -/
theorem pagingLawsOfTheSource : Obligations.PagingLawsOfTheSource := by
  constructor
  · intro s v w model unlocked
    have accepts : exec (.setPaging v) s = .next ((s.acceptPaging v).answer .none) := by
      rw [exec_pagingRow (.inl rfl), setPaging_accepted v model unlocked]
    exact ⟨_, accepts, congrArg ReadBank.ram (pagBank_eq v), congrArg WriteBank.ram (pagBank_eq v),
      fun lock => lockedPagingIsIgnored _ w _ (.inl rfl) ((pagLock_eq v).trans lock)⟩
  · intro s model unlocked rom
    have write : exec (.ioWrite 0x7FFD#16 0x10#8 0) s = .next ((s.writePaging 0x10#8).answer .none) :=
      exec_ioWrite (writeArms_paging_odd (by decide) (by decide)) _ _ s
    rw [writePaging_accepted _ model unlocked] at write
    exact ⟨exec_memRead_zero rom, _, write, exec_memRead_zero (pagRom_eq 0x10#8)⟩

/-! ### The frame of a snapshot -/

/-- Pages outside 0..7 change nothing (R93). -/
theorem loadPages_out_of_range (pages : List (Int × BankImage)) (ram : Memory) (h : ∀ e ∈ pages, e.1 < 0 ∨ 7 < e.1) :
    pages.foldl loadPage ram = ram := by
  induction pages generalizing ram with
  | nil => rfl
  | cons page rest ih =>
    have outside : ¬ (0 ≤ page.1 ∧ page.1 ≤ 7) := by
      have := h page (.head _)
      omega
    calc rest.foldl loadPage (loadPage ram page)
        = loadPage ram page := ih _ fun e he => h e (.tail _ he)
      _ = ram := if_neg outside

/-- Settles O36: the pages fold over RAM alone; a bank none of them names is kept, and so is all of RAM when none is in range. -/
theorem snapshotChangesOnlyNamedBanks : Obligations.SnapshotChangesOnlyNamedBanks := by
  intro s pages
  refine ⟨_, rfl, fun b o unnamed => loadPages_read_other pages s.ram b o unnamed, rfl, fun outside => ?_⟩
  rw [loadPages_out_of_range pages s.ram outside]
  rfl

end Sys2Proof.Machine
end

section
/-! The port operations (R101 to R113): the calls of every arm, the arms one `IO_WRITE` runs (the ULA's by bit 0, then at most one other), and
what a port operation leaves unchanged. -/

namespace Sys2Proof.Machine

/-! ### The arms one `IO_WRITE` runs -/

/-- The ULA arm at an even address, no arm at an odd one: what every `IO_WRITE` runs first (R64, D12). -/
def ulaArms (a : Addr) : List WriteArm := if ulaTest.holds a then [.ula] else []

theorem ulaArms_even {a : Addr} (even : a &&& 0x0001#16 = 0x0000#16) : ulaArms a = [.ula] :=
  if_pos ((holds_iff ulaTest a).mpr even)

theorem ulaArms_odd {a : Addr} (odd : a &&& 0x0001#16 ≠ 0x0000#16) : ulaArms a = [] :=
  if_neg ((holds_iff ulaTest a).not.mpr odd)

theorem odd_of_bit0 {a : Addr} (bit0 : a.getLsbD 0 = true) : a &&& 0x0001#16 ≠ 0x0000#16 :=
  (holds_iff ulaTest a).not.mp (by simp [ulaTest_bits, bit0, -BitVec.getLsbD_eq_getElem])

/-- The three arms besides the ULA's exclude one another: the one whose test holds runs, after the ULA's (R70). -/
theorem writeArms_of_test {a : Addr} {w : WriteArm} (other : w ≠ .ula) (test : w.test.holds a = true) : writeArms a = ulaArms a ++ [w] := by
  rw [writeArms_cases]
  refine congrArg (ulaArms a ++ ·) ?_
  cases w with
  | ula => exact absurd rfl other
  | paging => exact if_pos test
  | aySel =>
    have bits : (a.getLsbD 15 && a.getLsbD 14 && !a.getLsbD 1) = true := (ayUpperTest_bits a).symm.trans test
    simp only [Bool.and_eq_true] at bits
    rw [if_neg (by simp [pagingTest_bits, bits, -BitVec.getLsbD_eq_getElem])]
    exact if_pos test
  | ayData =>
    have bits : (a.getLsbD 15 && !a.getLsbD 14 && !a.getLsbD 1) = true := (ayLowerTest_bits a).symm.trans test
    simp only [Bool.and_eq_true, Bool.not_eq_true'] at bits
    rw [if_neg (by simp [pagingTest_bits, bits, -BitVec.getLsbD_eq_getElem]),
      if_neg (by simp [ayUpperTest_bits, bits, -BitVec.getLsbD_eq_getElem])]
    exact if_pos test

/-- With bit 1 set no arm besides the ULA's runs (R70). -/
theorem writeArms_of_bit1 {a : Addr} (bit1 : a.getLsbD 1 = true) : writeArms a = ulaArms a := by
  rw [writeArms_cases, ulaArms]
  simp [pagingTest_bits, ayUpperTest_bits, ayLowerTest_bits, bit1, -BitVec.getLsbD_eq_getElem]

/-! ### One arm and its calls -/

/-- The ULA arm, if it runs, only sends the border and the buzzer call (R106). -/
theorem runWriteArms_ulaArms (s : State) (a : Addr) (d : Byte) (c : Nat) :
    s.runWriteArms d c (ulaArms a) = if a &&& 0x0001#16 = 0x0000#16 then
      { s with out := s.out ++ [.setBorder (d.extractLsb' 0 3), .updateBuzzer (d.extractLsb' 4 1) c] } else s := by
  split
  · next even =>
    rw [ulaArms_even even, ← ulaBorder_eq, ← ulaBuzzer_eq]
    exact runWriteArm_settled (w := .ula) nofun c
  · next odd => rw [ulaArms_odd odd]; rfl

/-- `IO_WRITE` is its one arm besides the ULA's, run in the state the ULA arm leaves (R105). -/
theorem exec_ioWrite_of_test {a : Addr} {w : WriteArm} (other : w ≠ .ula) (test : w.test.holds a = true) (d : Byte) (c : Nat) (s : State) :
    exec (.ioWrite a d c) s = .next (((s.runWriteArms d c (ulaArms a)).runWriteArm d c w).answer .none) := by
  rw [exec_ioWrite (writeArms_of_test other test), runWriteArms_append]
  rfl

/-- The arm of a test that holds is among the arms of the write, and its calls among the write's (R105). -/
theorem mem_calls_of_test {a : Addr} {w : WriteArm} {d : Byte} {c : Nat} {e : Event} (test : w.test.holds a = true) (call : e ∈ w.events d c) :
    e ∈ (writeArms a).flatMap (WriteArm.events d c) := by
  have listed : w ∈ [WriteArm.ula, .paging, .aySel, .ayData] := by cases w <;> decide
  exact List.mem_flatMap.mpr ⟨w, List.mem_filter.mpr ⟨listed, test⟩, call⟩

/-! ### Writes -/

/-- Settles O45: with `u` the state the ULA arm leaves, each clause's mask decides the arm run in it, if any. -/
theorem portWriteRunsEveryMatchingArm : Obligations.PortWriteRunsEveryMatchingArm := by
  intro s a d c u hu
  rw [← runWriteArms_ulaArms] at hu
  subst hu
  refine ⟨fun paging => exec_ioWrite_of_test (w := .paging) nofun ((holds_iff _ a).mpr paging) d c s,
    fun aySel => exec_ioWrite_of_test (w := .aySel) nofun ((holds_iff _ a).mpr aySel) d c s,
    fun ayData => exec_ioWrite_of_test (w := .ayData) nofun ((holds_iff _ a).mpr ayData) d c s, fun noArm => ?_⟩
  have bit1 : a.getLsbD 1 = true := by simpa using (masked_eq_iff a _ _).mp noArm 1
  exact exec_ioWrite (writeArms_of_bit1 bit1) d c s

/-- Settles O47: the arm is `SET_PAGING` after its event; of the arms of a port write only this one touches the block
(`sameBlock_runWriteArms`); an accepted byte sets the bit slices of PAGF, and after an ignored one only the event is left. -/
theorem pagingArmForwardsTheWholeByte : Obligations.PagingArmForwardsTheWholeByte := by
  intro s a d c
  refine ⟨rfl, fun paging odd => exec_ioWrite (writeArms_paging_odd paging odd) d c s, fun paging => ?_, fun model unlocked => ?_,
    fun ignored => ?_⟩
  · have test : pagingTest.holds a = true := (holds_iff _ a).mpr paging
    have block := sameBlock_runWriteArms s a d c
    rw [if_pos test] at block
    exact ⟨_, _, _, rfl, rfl, runWriteArms_out s d c _, mem_calls_of_test (w := .paging) test (.head _),
      block.hiBank, block.romSel, block.screenSel, block.locked, block.pagingValue, block.slotCont⟩
  · have accepted : exec (.iowPaging a d c) s = .next (((s.emit (.setPaging d)).acceptPaging d).answer .none) :=
      congrArg (fun t => Host.Outcome.next (State.answer t .none)) (writePaging_accepted d model unlocked)
    exact ⟨_, accepted, rfl, pagBank_eq d, pagRom_eq d, pagScreen_eq d, pagLock_eq d⟩
  · have settled : PagingSettled d s := ignored.elim (setPaging_m48 d) (setPaging_locked d)
    exact congrArg (fun t => Host.Outcome.next (State.answer t .none)) (runWriteArm_settled (w := .paging) (fun _ => settled) c)

/-- Settles O46: the arm's two calls, with the fields of ULAF as bit slices. -/
theorem ulaWriteSetsBorderThenBuzzer : Obligations.UlaWriteSetsBorderThenBuzzer := by
  intro s a d c
  rw [← ulaBorder_eq, ← ulaBuzzer_eq]
  exact congrArg (fun t => Host.Outcome.next (State.answer t .none)) (runWriteArm_settled (w := .ula) nofun c)

section SoundArm

variable {a : Addr} {w : WriteArm} (other : w ≠ .ula) (sound : w ≠ .paging) (test : w.test.holds a = true) (d : Byte) (c : Nat) (s : State)

include other sound test

/-- A port write that passes the test of a sound arm, by whole next state: the calls of its arms and nothing else (R108, R109). -/
theorem exec_ioWrite_sound :
    exec (.ioWrite a d c) s = .next { s with out := s.out ++ (writeArms a).flatMap (WriteArm.events d c), returned := .none } := by
  have noPaging : .paging ∉ writeArms a := by
    rw [writeArms_of_test other test, ulaArms]
    split <;> simp [sound.symm]
  rw [exec_ioWrite rfl, runWriteArms_settled fun paging => absurd paging noPaging]
  rfl

/-- At an odd address these are the calls of the sound arm alone. -/
theorem exec_ioWrite_sound_odd (odd : a &&& 0x0001#16 ≠ 0x0000#16) :
    exec (.ioWrite a d c) s = .next { s with out := s.out ++ w.events d c, returned := .none } := by
  rw [exec_ioWrite_sound other sound test, writeArms_of_test other test, ulaArms_odd odd, List.nil_append, List.flatMap_singleton]

end SoundArm

/-- Settles O48: the arm's one call, with the index as a bit slice, is among those of every write that passes its test. -/
theorem soundSelectPassesTheLowNibble : Obligations.SoundSelectPassesTheLowNibble := by
  intro s a d c
  rw [← ayIndex_eq]
  have test (mask : a &&& 0xC002#16 = 0xC000#16) : WriteArm.aySel.test.holds a = true := (holds_iff _ a).mpr mask
  exact ⟨rfl, fun odd mask => exec_ioWrite_sound_odd (w := .aySel) nofun nofun (test mask) d c s odd,
    fun mask => ⟨_, exec_ioWrite_sound (w := .aySel) nofun nofun (test mask) d c s, mem_calls_of_test (test mask) (.head _)⟩⟩

/-- Settles O49: the arm's one call, with the byte and the count as they came, is among those of every write that passes its test. -/
theorem soundDataWritePassesByteAndCount : Obligations.SoundDataWritePassesByteAndCount := by
  intro s a d c
  have test (mask : a &&& 0xC002#16 = 0x8000#16) : WriteArm.ayData.test.holds a = true := (holds_iff _ a).mpr mask
  exact ⟨rfl, fun odd mask => exec_ioWrite_sound_odd (w := .ayData) nofun nofun (test mask) d c s odd,
    fun mask => ⟨_, exec_ioWrite_sound (w := .ayData) nofun nofun (test mask) d c s, mem_calls_of_test (test mask) (.head _)⟩⟩

/-- Settles O50: bit 1 leaves at most the ULA arm, and bit 0 rules that out. -/
theorem unmatchedWriteDoesNothing : Obligations.UnmatchedWriteDoesNothing := by
  refine fun s a d c => ⟨rfl, fun bit1 bit0 => ?_⟩
  rw [exec_ioWrite ((writeArms_of_bit1 bit1).trans (ulaArms_odd (odd_of_bit0 bit0)))]
  rfl

/-! ### Reads and queries -/

/-- Settles O41: the arm's three updates, on the byte of the state before. -/
theorem keyboardReadPollsWithTheFullAddress : Obligations.KeyboardReadPollsWithTheFullAddress :=
  fun _ _ => ⟨_, rfl, rfl⟩

/-- Settles O42: the arm's three updates, on the byte of the state before. -/
theorem soundDataReadReturnsTheDrawnByte : Obligations.SoundDataReadReturnsTheDrawnByte :=
  fun _ _ => ⟨_, rfl, rfl⟩

/-- Settles O43: the arm only answers, and `IO_READ` takes it as its third test (`portReadTakesTheFirstMatchingArm`). -/
theorem joystickReadReturnsZero : Obligations.JoystickReadReturnsZero := by
  intro s a
  obtain ⟨-, -, takesJoy, -⟩ := portReadTakesTheFirstMatchingArm a s
  exact ⟨rfl, fun bit0 => takesJoy (odd_of_bit0 bit0)⟩

/-- Settles O44: the arm only answers, and `IO_READ` takes it when its three tests fail (`portReadTakesTheFirstMatchingArm`). -/
theorem unmatchedReadReturnsTheFloatingByte : Obligations.UnmatchedReadReturnsTheFloatingByte := by
  intro s a
  obtain ⟨-, -, -, takesFloat⟩ := portReadTakesTheFirstMatchingArm a s
  exact ⟨rfl, takesFloat⟩

/-- The ULA's test is the parity of the address (R111). -/
theorem ulaTest_parity (a : Addr) : ulaTest.holds a = (a.toNat % 2 == 0) := by
  have bit0 : a.getLsbD 0 = decide (a.toNat % 2 = 1) := Nat.testBit_zero a.toNat
  rw [ulaTest_bits, bit0]
  rcases Nat.mod_two_eq_zero_or_one a.toNat with even | odd
  · rw [even]; rfl
  · rw [odd]; rfl

/-- Settles O51: the query answers the ULA's test. -/
theorem ulaPortIsAnEvenAddress : Obligations.UlaPortIsAnEvenAddress := by
  intro s a
  rw [← ulaTest_parity]
  rfl

/-- Settles O52: the lookup's entry (`ctLookup_ct`), under the test of the contention switch, with no look at the address. -/
theorem portContentionIgnoresTheAddress : Obligations.PortContentionIgnoresTheAddress :=
  fun s _ c => ⟨_, ctLookup_ct s.params.table c, rfl⟩

/-! ### What a port operation leaves unchanged -/

/-- `t` is `s` but for the fields `SET_PAGING` writes, the trace and the returned value (R113). -/
def ChangesOnlyPaging (s t : State) : Prop :=
  t = { s with
    hiBank := t.hiBank, slotCont := { s.slotCont with s3 := t.slotCont.s3 }, romSel := t.romSel, screenSel := t.screenSel,
    locked := t.locked, pagingValue := t.pagingValue, out := t.out, returned := t.returned }

theorem ChangesOnlyPaging.trans {s t u : State} (h : ChangesOnlyPaging s t) (k : ChangesOnlyPaging t u) : ChangesOnlyPaging s u :=
  by rw [show t = _ from h] at k; exact k

theorem changesOnlyPaging_answer (s : State) (r : Ret) : ChangesOnlyPaging s (s.answer r) := rfl

theorem changesOnlyPaging_runWriteArm (s : State) (d : Byte) (c : Nat) (w : WriteArm) : ChangesOnlyPaging s (s.runWriteArm d c w) := by
  rw [ChangesOnlyPaging, runWriteArm_frame]

theorem changesOnlyPaging_runWriteArms (s : State) (d : Byte) (c : Nat) (arms : List WriteArm) :
    ChangesOnlyPaging s (s.runWriteArms d c arms) := by
  induction arms generalizing s with
  | nil => rfl
  | cons w rest ih => exact (changesOnlyPaging_runWriteArm s d c w).trans (ih _)

/-- One arm of `IO_READ` changes the trace, the returned value and the draw counter. -/
theorem runReadArm_frame (s : State) (a : Addr) (w : ReadArm) :
    s.runReadArm a w = { s with out := (s.runReadArm a w).out, returned := (s.runReadArm a w).returned, draws := (s.runReadArm a w).draws } := by
  cases w with
  | kbd | ayData | joy | float => rfl

/-- Settles O53: a write by the frame of its arms, a read by the frame of its arm; the two queries only answer. -/
theorem portOperationsChangeOnlyPaging : Obligations.PortOperationsChangeOnlyPaging := by
  refine fun s a d c => ⟨⟨_, rfl, (changesOnlyPaging_runWriteArms s d c (writeArms a)).trans (changesOnlyPaging_answer _ _)⟩, ?_⟩
  rintro i (rfl | rfl | rfl)
  · exact ⟨_, rfl, runReadArm_frame s a (readArm a)⟩
  · exact ⟨_, rfl, rfl⟩
  · exact ⟨_, rfl, rfl⟩

end Sys2Proof.Machine
end

section
/-! The contention tables (R120 to R129): the lookup by its whole next state, its period, what disabling contention does and the candidate tables. -/

namespace Sys2Proof.Machine

theorem exec_ctLookup {s : State} {x : TableSel} {c w : Nat} (h : ctLookup s.params.table x c = w) :
    exec (.ctLookup x c) s = .next { s with returned := .nat w } := by
  rw [← h]; rfl

theorem exec_ioContend {s : State} {c w : Nat} (h : s.ioWait c = w) (a : Addr) :
    exec (.ioContend a c) s = .next { s with returned := .nat w } := by
  rw [← h]; rfl

/-! ### The two tables -/

/-- Settles O22: every entry of ZT is 0 (`ctLookup_zt`). -/
theorem noOpTableLookupIsZero : Obligations.NoOpTableLookupIsZero :=
  fun s c => exec_ctLookup (ctLookup_zt s.params.table c)

/-- Settles O23: the lookup's entry (`ctLookup_ct`). -/
theorem tableLookupIsModuloTheFrame : Obligations.TableLookupIsModuloTheFrame :=
  fun s c => ⟨_, ctLookup_ct s.params.table c, exec_ctLookup rfl⟩

/-! ### The period -/

/-- The wait states of a port access repeat every frame (R123), contention enabled or not. -/
theorem ioWait_add_frames (s : State) (c k : Nat) : s.ioWait (c + k * s.params.table.frameLen) = s.ioWait c := by
  rw [State.ioWait, ctLookup_add_frames, State.ioWait]

/-- Settles O24: both operations only answer a wait, and both waits repeat every frame. -/
theorem contentionIsPeriodic : Obligations.ContentionIsPeriodic := fun s a c k =>
  ⟨exec_memContend (memWait_add_frames s a c k), exec_ioContend (ioWait_add_frames s c k) a⟩

/-! ### Contention disabled -/

section Disabled

variable {s : State} (disabled : s.params.contentionEnabled = false)

include disabled

/-- With contention disabled no bank is contended (R126, D10). -/
theorem tag_disabled (b : ReadBank) : tag s.params b = false := by
  cases b with
  | ram b => rw [tag, disabled, Bool.false_and]
  | rom r => exact tag_rom s.params r

/-- With contention disabled a port access waits for nothing (R126, D10). -/
theorem ioWait_disabled (c : Nat) : s.ioWait c = 0 := by
  rw [State.ioWait, disabled, if_neg Bool.false_ne_true]

end Disabled

/-- Settles O25: in a sound state the tag of a slot is its bank's (`Inv.slotCont_get`), so it is false, and a false tag means no wait
(`memWait_eq`); the port lookup tests the switch itself. -/
theorem disabledContentionNeverWaits : Obligations.DisabledContentionNeverWaits := by
  intro s a c sound disabled
  have slot : s.slotCont.get (slotOf a) = false := (sound.slotCont_get _).trans (tag_disabled disabled _)
  have wait : s.memWait a c = 0 := by rw [memWait_eq, slot, if_neg Bool.false_ne_true]
  exact ⟨tag_disabled disabled, exec_memIsContended slot, exec_memContend wait, exec_ioContend (ioWait_disabled disabled c) a⟩

/-! ### The candidate tables -/

/-- Where the length of a line is a multiple of the pattern's, as on M48, starting anew on every line is running on across lines (log 28). -/
theorem patternEntry_of_dvd {line : Nat} (h : 8 ∣ line) (start i : Nat) :
    patternEntry start line i =
      if start ≤ i ∧ (i - start) / line < 192 ∧ (i - start) % line < 128 then waitPattern.getD ((i - start) % 8) 0 else 0 := by
  rw [patternEntry, Nat.mod_mod_of_dvd _ h]

/-- The lookup in a candidate table is the candidate's formula at `C mod L` (R122, R128, R129). -/
theorem exec_ctLookup_candidate {s : State} {m : Model} (table : s.params.table = candidateTable m) (c : Nat) :
    exec (.ctLookup .ct c) s = .next { s with returned := .nat (candidateEntry m (c % candidateLen m)) } :=
  exec_ctLookup (by rw [table, ctLookup_candidate])

/-- Settles O26: the lookup is the candidate's formula, which is R128's for M48 because 8 divides its 224 cycles a line
(`patternEntry_of_dvd`); the entries written out are evaluated. -/
theorem candidateTablesFollowTheirFormula : Obligations.CandidateTablesFollowTheirFormula := by
  refine ⟨fun s m c table => ⟨?_, (exec_ctLookup_candidate table c).trans ?_⟩, by decide, by decide⟩
  · rw [table, candidateTable_frameLen]
    cases m with
    | m48 | m128 => rfl
  · cases m with
    | m48 => rw [candidateEntry, patternEntry_of_dvd (by decide)]; rfl
    | m128 => rfl

end Sys2Proof.Machine
end

section
/-! Construction, reset and the lock (R160 to R166, R170): what `RESET` writes on each model and what it keeps, the map of a locked block, and
the default mapping a new instance starts in. -/

namespace Sys2Proof.Machine

/-! ### `RESET` -/

theorem exec_reset {s t : State} (h : s.resetPaging = t) : exec .reset s = .next { t with returned := .none } := by
  rw [← h]; rfl

/-- `RESET` writes the six fields that `SET_PAGING` writes; the rest of the state is as before, on either model (R163). -/
theorem resetPaging_frame (s : State) :
    s.resetPaging = { s with
      hiBank := s.resetPaging.hiBank, slotCont := { s.slotCont with s3 := s.resetPaging.slotCont.s3 }, romSel := s.resetPaging.romSel,
      screenSel := s.resetPaging.screenSel, locked := s.resetPaging.locked, pagingValue := s.resetPaging.pagingValue } :=
  setPaging_frame _ _

/-- `RESET` leaves the block unlocked: its byte 0 has no lock bit, and where the byte is ignored the lock was cleared before (R161). -/
@[simp] theorem resetPaging_locked (s : State) : s.resetPaging.locked = false := by
  cases model : s.params.model with
  | m48 => rw [resetPaging_m48 model]
  | m128 => rw [resetPaging_m128 model]; rfl

/-- Settles O39: the six fields of `resetPaging_frame` are none of those named here. -/
theorem resetKeepsBanksAndConstants : Obligations.ResetKeepsBanksAndConstants :=
  fun s => ⟨_, exec_reset (resetPaging_frame s), rfl, rfl, rfl, rfl, rfl, rfl, rfl, rfl, rfl⟩

/-! ### The lock -/

theorem endsLock_iff (i : Instr) : endsLock i = true ↔ i = .reset ∨ ∃ p roms, i = .construct p roms := by
  cases i <;> simp [endsLock]

/-- In a locked state an operation that does not end the lock keeps the map: every paging byte is ignored (R91, R166). -/
theorem effect_keeps_map_of_locked {i : Instr} {s : State} (locked : s.locked = true) (h : endsLock i = false) : SameMap s (effect i s) := by
  have ignored (v : Byte) : SameMap s (s.setPaging v) := by
    rw [setPaging_locked v locked]
    exact .refl s
  cases i with
  | setPaging v | setPagingLocked v | setPagingM48 v => exact ignored v
  | iowPaging a d c => exact ignored d
  | ioWrite a d c =>
    rw [effect_ioWrite]
    split
    · exact ignored d
    · exact .refl s
  | reset | construct => cases h
  | _ => exact effect_keeps_map rfl s

theorem exec_keeps_map_of_locked {i : Instr} {s : State} (locked : s.locked = true) (h : endsLock i = false) :
    ∃ t, exec i s = .next t ∧ SameMap s t := by
  obtain ⟨t, ht, block⟩ := exec_effect i s
  exact ⟨t, ht, (effect_keeps_map_of_locked locked h).trans block.toSameMap⟩

/-- An accepted byte on M128 by its whole next state (R90). -/
theorem exec_setPaging_accepted {s : State} (v : Byte) (model : s.params.model = .m128) (unlocked : s.locked = false) :
    exec (.setPaging v) s = .next ((s.acceptPaging v).answer .none) := by
  rw [exec_pagingRow (.inl rfl), setPaging_accepted v model unlocked]

/-- Settles O31: the locking byte is accepted in full; while locked the map is kept (`exec_keeps_map_of_locked`); `RESET` unlocks. -/
theorem lockIsOneWayUntilReset : Obligations.LockIsOneWayUntilReset := by
  refine ⟨fun s v model unlocked lock => ?_, fun i s locked h => ?_, fun s => ⟨_, exec_reset rfl, resetPaging_locked s⟩⟩
  · exact ⟨_, exec_setPaging_accepted v model unlocked, (pagLock_eq v).trans lock, pagBank_eq v, pagRom_eq v, pagScreen_eq v⟩
  · obtain ⟨t, ht, map⟩ := exec_keeps_map_of_locked locked h
    exact ⟨t, ht, map.locked.trans locked, map.hiBank, map.romSel, map.screenSel, map.pagingValue, map.slotCont⟩

/-! ### The default mapping -/

/-- Settles O38: on M128 `RESET` accepts the byte 0, whose fields are all 0; on M48 it clears the lock, which no sound state has set
(`Inv.m48_fields`); and an operation that does not end the lock keeps it (`exec_keeps_map_of_locked`). -/
theorem resetRestoresTheDefaultMapping : Obligations.ResetRestoresTheDefaultMapping := by
  refine ⟨fun s model => exec_reset (resetPaging_m128 model), fun s model => exec_reset (resetPaging_m48 model),
    fun s sound model => ?_, fun i s t locked ht unlocked => (endsLock_iff i).mp ?_⟩
  · obtain ⟨hiBank, romSel, screenSel, unlocked, value⟩ := sound.m48_fields model
    have kept : s.resetPaging = s := by rw [resetPaging_m48 model, ← unlocked]
    have tag3 : s.slotCont.s3 = tag s.params (.ram 0#3) := by rw [sound.slotCont, hiBank]; rfl
    exact ⟨exec_reset kept, hiBank, romSel, screenSel, unlocked, value, tag3⟩
  · by_contra keeps
    obtain ⟨u, hu, map⟩ := exec_keeps_map_of_locked locked (Bool.eq_false_of_not_eq_true keeps)
    cases ht.symm.trans hu
    rw [map.locked, locked] at unlocked
    cases unlocked

/-- Settles O37: the fields are written out in `State.construct`, and image `r` is read in ROM bank `r` (`romOf_read`). -/
theorem constructBuildsTheDefaultMapping : Obligations.ConstructBuildsTheDefaultMapping :=
  fun _ _ roms _ => ⟨_, rfl, rfl, rfl, rfl, rfl, rfl, rfl, rfl, rfl, rfl, rfl, rfl, rfl, romOf_read roms⟩

/-- A storage with nothing listed reads as its fill (R160). -/
@[simp] theorem Memory.read_blank (fill : Fill) (k : Nat) : (Memory.blank fill).read k = fill.byteAt k := rfl

/-- Settles O40: the fields are written out in `State.reset`, whose ROM lists no byte and so reads as the OPEN images (`Memory.read_blank`). -/
theorem powerOnValues : Obligations.PowerOnValues :=
  ⟨rfl, rfl, rfl, rfl, rfl, rfl, rfl, rfl, rfl, rfl, fun r o => Memory.read_blank .romImage (romKey r o)⟩

/-! ### The tag of the high slot -/

/-- Settles O34: an accepted byte writes the tag of slot 3 only, with the tag of its bank, and slot 3 is the range from `0xC000` on. -/
theorem contentionFollowsTheHighBank : Obligations.ContentionFollowsTheHighBank := by
  intro s v a model unlocked
  refine ⟨_, exec_setPaging_accepted v model unlocked, fun high => exec_memIsContended ?_, rfl, rfl, rfl⟩
  rw [slotOf_s3 high, ← pagBank_eq]
  rfl

end Sys2Proof.Machine
end
